-- ==== Sys2Proof/Word.lean ====
section
/-! DEFINITION. The three word sizes of the SOv0 core (spec 00_scope.md R2). -/

namespace Sys2Proof

/-- An operand field of an instruction word, 8 bits (R2, OPERAND_BITS). -/
abbrev Byte := BitVec 8

/-- The accumulator and the program counter, 9 bits in two's complement (R2, ACC_BITS; R10, R13).
The signed integer the spec speaks of is `BitVec.toInt`. -/
abbrev Word9 := BitVec 9

/-- The content of one memory cell, 24 bits in two's complement (R2, CELL_BITS; R31, decision D1). -/
abbrev Cell := BitVec 24

end Sys2Proof
end

