-- ==== Sys2Proof/Machine/Operands.lean ====
section
/-! DEFINITION. Bit fields, the narrowing and widening of operand bytes, and the two operand forms
(spec 00_scope.md R4 to R6, 30_encoding.md R53). -/

namespace Sys2Proof.Machine

/-- `extractBits(value, width, offset)`: the field of `width` bits that starts at bit `offset`, unsigned (R5). A signed
value is given by its two's-complement pattern (00_scope.md section 5). -/
def extractBits (value width offset : Nat) : Nat := value / 2 ^ offset % 2 ^ width

/-- `signExtend8(b)`: an 8-bit field read as two's complement, `b - 256` from 128 on (R5). -/
def signExtend8 (b : Nat) : Int := if 128 ≤ b then (b : Int) - 256 else b

/-- `truncate8(v)`: the assembler's validating narrowing; it fails outside [-128, 127] (R4). -/
def truncate8 (v : Int) : Option Nat :=
  if -128 ≤ v ∧ v ≤ 127 then some (v % 256).toNat else none

/-- The assembler's address byte, "packed directly, unsigned" (R66); outside [0, 255] it is rejected (R67,
decision D13). -/
def addressByte (v : Int) : Option Nat :=
  if 0 ≤ v ∧ v ≤ 255 then some v.toNat else none

/-- The signed operand form: the field sign-extended (R53). -/
def signedOperand (field : Nat) : Int := signExtend8 field

/-- The address operand form: the field used directly, never sign-extended (R53). -/
def addressOperand (field : Nat) : Nat := field

/-- The byte a signed operand is packed as, `v mod 256` (R55). -/
def signedField (v : Int) : Nat := (v % 256).toNat

/-- The byte an address is packed as (R55). -/
def addressField (addr : Nat) : Nat := addr % 256

end Sys2Proof.Machine
end

