-- ==== Sys2Proof/Syntax.lean ====
section
/-! DEFINITION. The nine instructions, one constructor per row of the opcode table (spec 30_encoding.md R55).
Operands are the integers the decoder hands to execution (R53); which of them an encoding can hold is said in
WellFormed.lean. -/

namespace Sys2Proof

/-- A decoded instruction. `add`'s operands, and those of `shift`, `jump`, `zjump` and `inc`, are signed integers;
those of `read` and `write` are unsigned cell addresses (R53). The order is the fixed priority order of R56. -/
inductive Instr where
  | halt
  | add (a b : Int)
  | shift (n : Int)
  | jump (n : Int)
  | zjump (n : Int)
  | read (addr : Nat)
  | write (addr : Nat)
  | inc (n : Int)
  | nop
deriving DecidableEq, Repr

/-- The nine instruction kinds by name, which the decoder and the assembler scan (R55, R56, R65). -/
inductive Kind where
  | halt | add | shift | jump | zjump | read | write | inc | nop
deriving DecidableEq, Repr

/-- The kind of an instruction. -/
def Instr.kind : Instr → Kind
  | .halt => .halt
  | .add _ _ => .add
  | .shift _ => .shift
  | .jump _ => .jump
  | .zjump _ => .zjump
  | .read _ => .read
  | .write _ => .write
  | .inc _ => .inc
  | .nop => .nop

/-- The operands of an instruction, first operand first, as a program line lists them (R64). -/
def Instr.operands : Instr → List Int
  | .halt => []
  | .add a b => [a, b]
  | .shift n => [n]
  | .jump n => [n]
  | .zjump n => [n]
  | .read addr => [addr]
  | .write addr => [addr]
  | .inc n => [n]
  | .nop => []

end Sys2Proof
end

