-- ==== Sys2Proof/WellFormed.lean ====
section
/-! DEFINITION. Which instructions an encoding can hold: the operand ranges of spec 30_encoding.md R54. -/

namespace Sys2Proof

/-- A signed operand is an integer in [-128, 127] (R54). -/
def inSignedByte (v : Int) : Bool := decide (-128 ≤ v) && decide (v ≤ 127)

/-- An address operand is in [0, 255] (R54). -/
def inAddressByte (a : Nat) : Bool := decide (a ≤ 255)

/-- Every operand of the instruction is in the range of its field (R54). -/
def Instr.wf : Instr → Bool
  | .halt => true
  | .add a b => inSignedByte a && inSignedByte b
  | .shift n => inSignedByte n
  | .jump n => inSignedByte n
  | .zjump n => inSignedByte n
  | .read addr => inAddressByte addr
  | .write addr => inAddressByte addr
  | .inc n => inSignedByte n
  | .nop => true

/-- The instruction has an encoding: every operand is in range (R54). -/
abbrev Instr.WellFormed (i : Instr) : Prop := i.wf = true

end Sys2Proof
end

