-- ==== Sys2Proof/Decode.lean ====
section
/-! DEFINITION. The decoder and the encoder (spec 30_encoding.md sections 1 to 5). -/

namespace Sys2Proof

open Sys2Proof.Machine (extractBits signedOperand addressOperand signedField addressField)

/-- HALT is the distinguished value -1, the pattern `0xFFFFFF` (R52). -/
def haltWord : Cell := 0xFFFFFF#24

/-- `opc = w[18:16]` (R50). -/
def opcodeField (w : Cell) : Nat := extractBits w.toNat 3 16

/-- `op1 = w[15:8]` (R50). -/
def op1Field (w : Cell) : Nat := extractBits w.toNat 8 8

/-- `op2 = w[7:0]` (R50). -/
def op2Field (w : Cell) : Nat := extractBits w.toNat 8 0

/-- The opcode of a kind; HALT has none (R55). -/
def Kind.opcode : Kind → Option Nat
  | .halt => none
  | .nop => some 0
  | .add => some 1
  | .shift => some 2
  | .jump => some 3
  | .zjump => some 4
  | .read => some 5
  | .write => some 6
  | .inc => some 7

/-- Does the word's pattern match the kind: HALT compares the whole word with -1, every other kind compares
`w[18:16]` with its opcode and looks at nothing else (R56, R58). -/
def Kind.matchesWord (w : Cell) (k : Kind) : Bool :=
  match k.opcode with
  | none => w == haltWord
  | some c => opcodeField w == c

/-- The fixed priority order, significant for HALT against INC (R56). -/
def Kind.priority : List Kind := [.halt, .add, .shift, .jump, .zjump, .read, .write, .inc, .nop]

/-- The kind that owns a word: the first match in the priority order (R56). -/
def kindOfWord (w : Cell) : Option Kind := Kind.priority.find? (Kind.matchesWord w)

/-- The instruction of a kind with the operands of a word (R53, R57). -/
def Kind.instrOfWord (w : Cell) : Kind → Instr
  | .halt => .halt
  | .add => .add (signedOperand (op1Field w)) (signedOperand (op2Field w))
  | .shift => .shift (signedOperand (op1Field w))
  | .jump => .jump (signedOperand (op1Field w))
  | .zjump => .zjump (signedOperand (op1Field w))
  | .read => .read (addressOperand (op1Field w))
  | .write => .write (addressOperand (op1Field w))
  | .inc => .inc (signedOperand (op1Field w))
  | .nop => .nop

/-- The decoder. `none` is the spec's "no kind's word-pattern matches", the cause IllegalWord (R60, R151); the scan over
eight opcodes never answers it, which is a statement to prove and not built in. -/
def decode (w : Cell) : Option Instr := (kindOfWord w).map (Kind.instrOfWord w)

/-- `w = (opcode << 16) | (operandByte1 << 8) | operandByte2` (R51). -/
def packWord (opcode byte1 byte2 : Nat) : Cell :=
  BitVec.ofNat 24 (opcode <<< 16 ||| byte1 <<< 8 ||| byte2)

/-- The canonical word of an instruction (R55, the column of assembled words). -/
def encode : Instr → Cell
  | .halt => haltWord
  | .nop => packWord 0 0 0
  | .add a b => packWord 1 (signedField a) (signedField b)
  | .shift n => packWord 2 (signedField n) 0
  | .jump n => packWord 3 (signedField n) 0
  | .zjump n => packWord 4 (signedField n) 0
  | .read addr => packWord 5 (addressField addr) 0
  | .write addr => packWord 6 (addressField addr) 0
  | .inc n => packWord 7 (signedField n) 0

/-- The instruction the decoder reads from the bits `w` of an opcode-table row, numbered as the table numbers them: an
instruction is one cell (R50), so bit `k` is bit `k` of the cell; bits from `nbits` on are 0. -/
def decodeTableWord (nbits w : Nat) : Option Instr := decode (BitVec.ofNat 24 (w % 2 ^ nbits))

end Sys2Proof
end

