-- ==== Sys2Proof/Config.lean ====
section
/-! DEFINITION. The implementation parameters of spec 00_scope.md R2, and the one free value of the model. -/

namespace Sys2Proof

/-- FAULT_COMMIT (R2, R94, decision D5): what a failing step keeps. `precise` is the value the spec fixes: nothing
but the fault record. `effectFirst` keeps the effects that came before the failing `pc` update. -/
inductive FaultCommit where
  | precise
  | effectFirst
deriving DecidableEq, Repr

/-- The parameters of one construction, fixed for the lifetime of one run (R2). -/
structure Config where
  /-- `P`, the number of program words placed in memory at construction. -/
  progLen : Nat
  /-- `EXCESS`, the number of zero cells appended after the program. -/
  excess : Nat
  /-- `BUDGET`, the maximum number of instructions one run executes. -/
  budget : Nat
  /-- `SHIFT_W`, the width of the pattern over which SHIFT's right shift is taken (decision D3). -/
  shiftW : Nat
  /-- `FAULT_COMMIT` (decision D5). -/
  faultCommit : FaultCommit
deriving DecidableEq, Repr

/-- `N = P + EXCESS`, the memory length in cells (R2). -/
def Config.memLen (c : Config) : Nat := c.progLen + c.excess

/-- The legal values of the parameters (R2): construction fails unless `EXCESS > 0` and `BUDGET > 0`, and
`SHIFT_W >= 9`. -/
abbrev Config.Legal (c : Config) : Prop := 0 < c.excess ∧ 0 < c.budget ∧ 9 ≤ c.shiftW

/-- The defaults of R2, for a program of no words (log entry 1). -/
def Config.default : Config :=
  { progLen := 0, excess := 60, budget := 100000, shiftW := 9, faultCommit := .precise }

/-- FREE VALUE (R160, open point U7; log entry 9): the text of a failure detail, from the failure's code and the value
it records. The spec does not give it, so nothing constrains it. -/
opaque Config.failureDetail (code : Nat) (value : Int) : String

end Sys2Proof
end

