-- ==== Sys2Proof/Machine/State.lean ====
section
/-! DEFINITION. The architectural state of spec 10_state.md, its reset value, and the reasons a step can stop. -/

namespace Sys2Proof.Machine

/-- The cause of a run-time failure with the value it records (60_exceptions.md section 2, R151 to R153). A failure is
an event of the core: it is recorded in the state and the step answers a next state (R157). -/
inductive FailureCause where
  /-- The fetched word matches no kind; the word. Defined and never raised (R151, R60). -/
  | illegalWord (w : Cell)
  /-- READ or WRITE of an address not below the memory length; the address (R152). -/
  | addrOutOfBounds (addr : Nat)
  /-- The program counter stepped outside memory; the normalized target `t` (R153, R86). -/
  | pcOutOfBounds (t : Word9)
deriving DecidableEq, Repr

/-- The fault record: the cause, and the `pc` of the failing instruction (R15). -/
structure FaultRecord where
  cause : FailureCause
  fpc : Word9
deriving DecidableEq, Repr

/-- The linear memory: the cells that do not hold 0, by index, indexes strictly rising. An unlisted cell reads as 0, as
every cell the program does not fill does at construction (20_memory.md R30, R32). -/
abbrev Memory := List (Nat × Cell)

/-- The modified-cell log: the value last written to each written address, addresses strictly rising (R18). -/
abbrev WriteLog := List (Nat × Word9)

/-- The entries of a table stand at strictly rising keys. -/
abbrev Rising {α : Type} (l : List (Nat × α)) : Prop := l.Pairwise fun p q => p.1 < q.1

/-- The canonical form of a memory: rising indexes and no entry equal to what an unlisted cell reads as. -/
abbrev Memory.wf (m : Memory) : Prop := Rising m ∧ ∀ p ∈ m, p.2 ≠ 0

/-- The state of one machine (10_state.md), with the parameters it holds constant beside it (R2, log entry 1). -/
structure State where
  /-- The parameters of the run; no instruction writes them (R2). -/
  cfg : Config
  /-- The linear memory (R17). -/
  mem : Memory
  /-- The accumulator (R10). -/
  acc : Word9
  /-- The program counter, a cell index (R12). -/
  pc : Word9
  /-- The run flag (R14). -/
  running : Bool
  /-- The fault record (R15). -/
  fault : Option FaultRecord
  /-- The count of completed instructions (R16). -/
  icount : Nat
  /-- The modified-cell log (R18). -/
  log : WriteLog
deriving DecidableEq, Repr

/-- Why the model stops without a next state. No instruction stops so: a run-time failure of the spec is a next state
that holds a fault record. -/
inductive Fault where
  /-- Raised by `step` when `pc` names no cell of the memory. No state of a run has such a `pc` (R13); the address does
  not exist, so the model stops. Safe. -/
  | fetchOutsideMemory
deriving DecidableEq, Repr

/-- Why the model gives an instruction no meaning. Every instruction of the table has one, so nothing raises it. -/
inductive Refusal where
  /-- An instruction not modelled yet, by its mnemonic. Raised by no arm of `exec`. Safe. -/
  | notModelled (mnemonic : String)
deriving DecidableEq, Repr

/-- What a sequence of primitives comes to: the state it leaves, or a raised failure with the state at that moment
(R85, R94). -/
inductive Attempt where
  | done (s : State)
  | raised (cause : FailureCause) (s : State)
deriving DecidableEq, Repr

/-- The machine right after construction (R19) with the default parameters of R2 and no program words: every cell is 0.
How a program comes into memory is log entry 8. -/
def State.reset : State :=
  { cfg := Config.default, mem := [], acc := 0, pc := 0, running := true, fault := none, icount := 0, log := [] }

end Sys2Proof.Machine
end

