-- ==== Sys2Proof/Machine/Ops.lean ====
section
/-! DEFINITION. Tables by index, memory access, normalization, the state-mutating primitives of spec 40_engine.md section
2, and the taking of a run-time failure. -/

namespace Sys2Proof.Machine

/-- The entry of a table at a key. -/
def tableGet {α : Type} : List (Nat × α) → Nat → Option α
  | [], _ => none
  | (k, v) :: rest, a => if a = k then some v else tableGet rest a

/-- The table with the value at a key added or replaced, keys kept rising. -/
def tableSet {α : Type} : List (Nat × α) → Nat → α → List (Nat × α)
  | [], a, x => [(a, x)]
  | (k, v) :: rest, a, x =>
    if a < k then (a, x) :: (k, v) :: rest
    else if a = k then (a, x) :: rest
    else (k, v) :: tableSet rest a x

/-- The table without its entries at a key. -/
def tableErase {α : Type} (l : List (Nat × α)) (a : Nat) : List (Nat × α) := l.filter fun p => p.1 ≠ a

/-- `MemRead(addr, 1)`: the content of a cell; an unlisted cell reads as 0 (R33, R30). The signed integer of the spec
is the `toInt` of the answer. -/
def memRead (m : Memory) (addr : Nat) : Cell := (tableGet m addr).getD 0

/-- Store a whole cell, keeping the canonical form: the value an unlisted cell reads as removes the entry (R34). -/
def memWrite (m : Memory) (addr : Nat) (v : Cell) : Memory :=
  if v = 0 then tableErase m addr else tableSet m addr v

/-- `truncate9(v)`: the low nine bits of an integer as a signed value; total and wrapping (R3). -/
def truncate9 (v : Int) : Word9 := BitVec.ofInt 9 v

/-- The cell that holds an accumulator value: its pattern sign-extended to 24 bits (R34). -/
def cellOfAcc (v : Word9) : Cell := v.signExtend 24

/-- Is the program counter the index of a cell (R86, R13)? -/
def pcInMemory (n : Nat) (t : Word9) : Bool := decide (0 ≤ t.toInt) && decide (t.toInt < n)

/-- The word at the program counter (R81 a). `none` when `pc` names no cell, which no state of a run has (R13). -/
def fetch (s : State) : Option Cell :=
  if pcInMemory s.cfg.memLen s.pc then some (memRead s.mem s.pc.toInt.toNat) else none

/-- Do one thing after another; a raised failure ends the sequence. -/
def Attempt.andThen (a : Attempt) (f : State → Attempt) : Attempt :=
  match a with
  | .done s => f s
  | .raised c s => .raised c s

/-- `AdvancePc(off)` (R86): add a signed offset, normalize to nine bits, and fail unless the result is an index of
memory. -/
def advancePc (off : Int) (s : State) : Attempt :=
  if pcInMemory s.cfg.memLen (truncate9 (s.pc.toInt + off)) then
    .done { s with pc := truncate9 (s.pc.toInt + off) }
  else .raised (.pcOutOfBounds (truncate9 (s.pc.toInt + off))) s

/-- `AdjustAcc(off)` (R87). -/
def adjustAcc (off : Int) (s : State) : State := { s with acc := truncate9 (s.acc.toInt + off) }

/-- `SetHalted()` (R88). -/
def setHalted (s : State) : State := { s with running := false }

/-- `ReadCell(addr)` (R89): bounds check, then the low nine bits of the cell into the accumulator. -/
def readCell (addr : Nat) (s : State) : Attempt :=
  if addr < s.cfg.memLen then .done { s with acc := truncate9 (memRead s.mem addr).toInt }
  else .raised (.addrOutOfBounds addr) s

/-- `WriteCell(addr)` (R90): bounds check, then the store and the log entry. -/
def writeCell (addr : Nat) (s : State) : Attempt :=
  if addr < s.cfg.memLen then
    .done { s with mem := memWrite s.mem addr (cellOfAcc s.acc), log := tableSet s.log addr s.acc }
  else .raised (.addrOutOfBounds addr) s

/-- The exact result of SHIFT before normalization (R111): right and logical over the `w`-bit pattern for a positive
count, left for a negative one, the count used exactly (decisions D3, D4). -/
def shiftExact (w : Nat) (acc n : Int) : Int :=
  if 0 < n then acc % 2 ^ w / 2 ^ n.toNat
  else if n < 0 then acc * 2 ^ (-n).toNat
  else acc

/-- `ShiftAcc(n)` (R91, R111): normalization is applied once, after the shift. -/
def shiftAcc (n : Int) (s : State) : State :=
  { s with acc := truncate9 (shiftExact s.cfg.shiftW s.acc.toInt n) }

/-- `SetAccSum(a, b)` (R92): the old accumulator is no input. -/
def setAccSum (a b : Int) (s : State) : State := { s with acc := truncate9 (a + b) }

/-- Taking a run-time failure (R81, R94, R157): the record holds the cause and the `pc` at which the step began. With
`FAULT_COMMIT = precise` nothing else of the step is kept; with `effect_first` the effects up to the failure are
(decision D5). `start` is the state when the step began, `at_` the state when the failure was raised. -/
def takeFailure (cause : FailureCause) (start at_ : State) : State :=
  match start.cfg.faultCommit with
  | .precise => { start with fault := some { cause := cause, fpc := start.pc } }
  | .effectFirst => { at_ with fault := some { cause := cause, fpc := start.pc } }

/-- The end of a step (R81): a completed instruction is counted, a failure is taken and not counted (R16). -/
def settle (start : State) (a : Attempt) : Host.Outcome State Fault Refusal :=
  match a with
  | .done s => .next { s with icount := s.icount + 1 }
  | .raised c s => .next (takeFailure c start s)

/-- The run loop's condition, tested before every step (R80). -/
def live (s : State) : Bool := decide (s.icount < s.cfg.budget) && s.running && s.fault.isNone

end Sys2Proof.Machine
end

