-- ==== Sys2Proof/Machine/Alu.lean ====
section
/-! DEFINITION. The accumulator ALU: ADD, SHIFT and INC (spec 42_alu.md). -/

namespace Sys2Proof.Machine

/-- ADD a b (R110): the sum of two immediates; the old accumulator is no input. -/
def execAdd (a b : Int) (s : State) : Host.Outcome State Fault Refusal := settle s (advancePc 1 (setAccSum a b s))

/-- SHIFT n (R111). -/
def execShift (n : Int) (s : State) : Host.Outcome State Fault Refusal := settle s (advancePc 1 (shiftAcc n s))

/-- INC n (R112). -/
def execInc (n : Int) (s : State) : Host.Outcome State Fault Refusal := settle s (advancePc 1 (adjustAcc n s))

end Sys2Proof.Machine
end

