-- ==== Sys2Proof/Machine/HaltNop.lean ====
section
/-! DEFINITION. HALT and NOP (spec 41_halt_nop.md). -/

namespace Sys2Proof.Machine

/-- HALT (R100): clear the run flag; the program counter stays. -/
def execHalt (s : State) : Host.Outcome State Fault Refusal := settle s (.done (setHalted s))

/-- NOP (R101). -/
def execNop (s : State) : Host.Outcome State Fault Refusal := settle s (advancePc 1 s)

end Sys2Proof.Machine
end

