-- ==== Sys2Proof/Machine/Flags.lean ====
section
/-! DEFINITION. The core has no condition codes (spec 10_state.md R20): no instruction records anything about its result.
The one test an instruction makes is the zero test of the accumulator itself. -/

namespace Sys2Proof.Machine

/-- `AccIsZero()` (40_engine.md R93): does the accumulator equal zero? It reads only. -/
def accIsZero (s : State) : Bool := s.acc.toInt == 0

end Sys2Proof.Machine
end

