-- ==== Sys2Proof/Machine/Jump.lean ====
section
/-! DEFINITION. Control transfer: JUMP and ZJUMP (spec 43_jump.md). -/

namespace Sys2Proof.Machine

/-- JUMP n (R130): relative to the address of the jump itself. -/
def execJump (n : Int) (s : State) : Host.Outcome State Fault Refusal := settle s (advancePc n s)

/-- ZJUMP n (R131): taken exactly when the stored accumulator is zero. -/
def execZjump (n : Int) (s : State) : Host.Outcome State Fault Refusal :=
  settle s (if accIsZero s then advancePc n s else advancePc 1 s)

end Sys2Proof.Machine
end

