-- ==== Sys2Proof/Machine/ReadWrite.lean ====
section
/-! DEFINITION. The load and the store: READ and WRITE (spec 44_read_write.md). The address is checked before the `pc`
update (40_engine.md R95). -/

namespace Sys2Proof.Machine

/-- READ addr (R140). -/
def execRead (addr : Nat) (s : State) : Host.Outcome State Fault Refusal :=
  settle s ((readCell addr s).andThen (advancePc 1))

/-- WRITE addr (R141). -/
def execWrite (addr : Nat) (s : State) : Host.Outcome State Fault Refusal :=
  settle s ((writeCell addr s).andThen (advancePc 1))

end Sys2Proof.Machine
end

