-- ==== Sys2Proof/Machine/Dispatch.lean ====
section
/-! DEFINITION. The dispatch on the decoded kind (spec 40_engine.md R96), one arm per instruction. -/

namespace Sys2Proof.Machine

def exec (i : Instr) (s : State) : Host.Outcome State Fault Refusal :=
  match i with
  | .halt => Sys2Proof.Machine.execHalt s
  | .add a b => Sys2Proof.Machine.execAdd a b s
  | .shift n => Sys2Proof.Machine.execShift n s
  | .jump n => Sys2Proof.Machine.execJump n s
  | .zjump n => Sys2Proof.Machine.execZjump n s
  | .read addr => Sys2Proof.Machine.execRead addr s
  | .write addr => Sys2Proof.Machine.execWrite addr s
  | .inc n => Sys2Proof.Machine.execInc n s
  | .nop => Sys2Proof.Machine.execNop s

end Sys2Proof.Machine
end

