-- ==== Sys2Proof/Machine/Step.lean ====
section
/-! DEFINITION. One iteration of the run loop (spec 40_engine.md R80, R81), and the placing of one instruction word. -/

namespace Sys2Proof.Machine

/-- One iteration of the run loop: while the loop's condition holds, fetch, decode and execute (R80, R81). Once the run
has ended no step is taken and all state survives unchanged (R165, log entry 2). -/
def step (s : State) : Host.Outcome State Fault Refusal :=
  if live s then
    match fetch s with
    | none => .fault .fetchOutsideMemory
    | some w =>
      match decode w with
      | none => .next (takeFailure (.illegalWord w) s s)
      | some i => exec i s
  else .next s

/-- `s` with the word whose bits are `w` in the cell at the program counter, where `step` fetches its next instruction
(log entry 8). An instruction is one cell (R50); bits from `nbits` on are 0. -/
def State.withFetchWord (s : State) (nbits w : Nat) : State :=
  { s with mem := memWrite s.mem s.pc.toInt.toNat (BitVec.ofNat 24 (w % 2 ^ nbits)) }

end Sys2Proof.Machine
end

