-- ==== Sys2Proof/Machine/Assembler.lean ====
section
/-! DEFINITION. The assembler: program text to words (spec 30_encoding.md section 6, R62 to R69). It is the toolchain
beside the core; nothing in `step` uses it. Text is a list of characters. -/

namespace Sys2Proof.Machine

/-- Why a construction is rejected (R161, R68). Lines are the 1-based numbers of source lines. -/
inductive ConstructionFailure where
  /-- A line that matches no pattern. -/
  | invalidLine (line : Nat)
  /-- An operand out of its range: a signed one outside [-128, 127] (R67), an address outside [0, 255] (D13). -/
  | operandOutOfRange (line : Nat)
  /-- `EXCESS <= 0` (R2). -/
  | excessNotPositive
  /-- `BUDGET <= 0` (R2). -/
  | budgetNotPositive
deriving DecidableEq, Repr

/-- The words of a construction, or why it is rejected. -/
inductive Assembly where
  | words (ws : List Cell)
  | rejected (why : ConstructionFailure)
deriving DecidableEq, Repr

/-- The pieces of a text between separators; with no separator, the text itself. -/
def splitOnChar (sep : Char) : List Char → List (List Char)
  | [] => [[]]
  | c :: cs =>
    if c = sep then [] :: splitOnChar sep cs
    else
      match splitOnChar sep cs with
      | [] => [[c]]
      | l :: ls => (c :: l) :: ls

/-- The white space that trimming removes: space, tab, carriage return, line feed (log entry 5; D20). -/
def isSpace (c : Char) : Bool := c == ' ' || c == '\t' || c == '\r' || c == '\n'

/-- A text without its leading and trailing white space. -/
def trimSpace (cs : List Char) : List Char := ((cs.dropWhile isSpace).reverse.dropWhile isSpace).reverse

/-- `stripComment(line)`: what stands before the first `#`, trimmed (R63). -/
def stripComment (line : List Char) : List Char := trimSpace (line.takeWhile fun c => c != '#')

/-- `isBlank(s)`: empty or white space only (R63). -/
def isBlank (s : List Char) : Bool := s.all isSpace

/-- The value of a run of decimal digits read after `acc`. -/
def parseDigits : Nat → List Char → Option Nat
  | acc, [] => some acc
  | acc, c :: cs => if c.isDigit then parseDigits (acc * 10 + (c.toNat - 48)) cs else none

/-- One or more decimal digits; leading zeros mean nothing (D14). -/
def parseNat (ds : List Char) : Option Nat := if ds.isEmpty then none else parseDigits 0 ds

/-- `<int>`: an optional `-` and one or more decimal digits; a leading `+` is refused (R64, D14). -/
def parseInt : List Char → Option Int
  | [] => none
  | c :: cs =>
    if c = '-' then (parseNat cs).map fun n : Nat => -(n : Int) else (parseNat (c :: cs)).map fun n : Nat => (n : Int)

/-- The upper-case mnemonic of a kind (R64). -/
def mnemonicOf : Kind → List Char
  | .halt => ['H', 'A', 'L', 'T']
  | .nop => ['N', 'O', 'P']
  | .add => ['A', 'D', 'D']
  | .shift => ['S', 'H', 'I', 'F', 'T']
  | .jump => ['J', 'U', 'M', 'P']
  | .zjump => ['Z', 'J', 'U', 'M', 'P']
  | .read => ['R', 'E', 'A', 'D']
  | .write => ['W', 'R', 'I', 'T', 'E']
  | .inc => ['I', 'N', 'C']

/-- How many operands a kind takes (R55, R64). -/
def arityOf : Kind → Nat
  | .halt => 0
  | .nop => 0
  | .add => 2
  | .shift => 1
  | .jump => 1
  | .zjump => 1
  | .read => 1
  | .write => 1
  | .inc => 1

/-- The operands of a line if it matches the kind's pattern: the mnemonic, then its `<int>` operands, each after exactly
one space, and no other token (R64, C8). -/
def matchLine (line : List Char) (k : Kind) : Option (List Int) :=
  match splitOnChar ' ' line with
  | [] => none
  | m :: args => if m = mnemonicOf k ∧ args.length = arityOf k then args.mapM parseInt else none

/-- The first kind, in the priority order, whose pattern matches the line, with the operands (R65). -/
def matchKind (line : List Char) : List Kind → Option (Kind × List Int)
  | [] => none
  | k :: ks =>
    match matchLine line k with
    | some ops => some (k, ops)
    | none => matchKind line ks

/-- A line, comment stripped, as a kind with its operands (R65). -/
def parseLine (line : List Char) : Option (Kind × List Int) := matchKind line Kind.priority

/-- The word of a one-operand signed kind (R66). -/
def packSigned (opcode : Nat) (v : Int) : Option Cell := (truncate8 v).map fun b => packWord opcode b 0

/-- The word of an address kind (R66). -/
def packAddress (opcode : Nat) (v : Int) : Option Cell := (addressByte v).map fun b => packWord opcode b 0

/-- The word of a matched line, or `none` where an operand is out of range (R66, R67, D13). -/
def assembleOperands : Kind → List Int → Option Cell
  | .halt, [] => some haltWord
  | .nop, [] => some (packWord 0 0 0)
  | .add, [a, b] => (truncate8 a).bind fun x => (truncate8 b).map fun y => packWord 1 x y
  | .shift, [n] => packSigned 2 n
  | .jump, [n] => packSigned 3 n
  | .zjump, [n] => packSigned 4 n
  | .read, [addr] => packAddress 5 addr
  | .write, [addr] => packAddress 6 addr
  | .inc, [n] => packSigned 7 n
  | _, _ => none

/-- Lines to words, the first line being number `line`: blank and comment lines are dropped but counted, and the first
line that fails decides (R62, R68). -/
def assembleLines : Nat → List (List Char) → Assembly
  | _, [] => .words []
  | line, l :: ls =>
    if isBlank (stripComment l) then assembleLines (line + 1) ls
    else
      match parseLine (stripComment l) with
      | none => .rejected (.invalidLine line)
      | some (k, ops) =>
        match assembleOperands k ops with
        | none => .rejected (.operandOutOfRange line)
        | some w =>
          match assembleLines (line + 1) ls with
          | .words ws => .words (w :: ws)
          | .rejected why => .rejected why

/-- Program text to words: lines are separated by the line feed (R62, D20). -/
def assemble (text : List Char) : Assembly := assembleLines 1 (splitOnChar '\n' text)

end Sys2Proof.Machine
end

