-- ==== Sys2Proof/Machine/Construct.lean ====
section
/-! DEFINITION. Construction: the one reset and program load of the core (spec 70_reset_and_hazards.md R180). -/

namespace Sys2Proof.Machine

/-- A machine in its reset state, or a rejected construction after which no machine exists (R161, R180). -/
inductive Construction where
  | machine (s : State)
  | rejected (why : ConstructionFailure)
deriving DecidableEq, Repr

/-- The words laid out from cell `i` on, zero words left unlisted (R32). -/
def layoutFrom : Nat → List Cell → Memory
  | _, [] => []
  | i, w :: ws => if w = 0 then layoutFrom (i + 1) ws else (i, w) :: layoutFrom (i + 1) ws

/-- Construction from the `P` program words (R167): the parameters must be positive (R2); memory is the words followed
by `EXCESS` zero cells; the registers are at their reset values (R19, R180 steps 3 and 4). SHIFT_W and FAULT_COMMIT are
the values the spec fixes (decisions D3, D5). -/
def construct (words : List Cell) (excess budget : Int) : Construction :=
  if excess ≤ 0 then .rejected .excessNotPositive
  else if budget ≤ 0 then .rejected .budgetNotPositive
  else
    .machine
      { State.reset with
        cfg := { Config.default with progLen := words.length, excess := excess.toNat, budget := budget.toNat }
        mem := layoutFrom 0 words }

/-- Construction from program text (R180). Where several failures apply, the assembler's is the one reported (log
entry 6). -/
def constructText (text : List Char) (excess budget : Int) : Construction :=
  match assemble text with
  | .rejected why => .rejected why
  | .words ws => construct ws excess budget

/-- The message of a rejected construction; the spec gives the text of one only (R161). -/
def constructionMessage : ConstructionFailure → Option String
  | .invalidLine n => some ("Invalid program instruction in line " ++ toString n)
  | .operandOutOfRange _ => none
  | .excessNotPositive => none
  | .budgetNotPositive => none

end Sys2Proof.Machine
end

