-- ==== Sys2Proof/Machine/Run.lean ====
section
/-! DEFINITION. The run loop to its end, the three outcomes of a run, and the Execution Result
(spec 40_engine.md R80, R82; 60_exceptions.md R160, R166). -/

namespace Sys2Proof.Machine

/-- How a run ended (R82). -/
inductive RunOutcome where
  | halted
  | budgetExhausted
  | failed (record : FaultRecord)
deriving DecidableEq, Repr

/-- How the run has ended in this state; `none` while it goes on. A failure is told by the record, HALT by the run flag,
and what is left is the budget: the message is chosen by `running`, not by the count (R82). -/
def outcomeOf (s : State) : Option RunOutcome :=
  match s.fault with
  | some r => some (.failed r)
  | none => if s.running then (if s.icount < s.cfg.budget then none else some .budgetExhausted) else some .halted

/-- At most `k` iterations of the loop of R80. -/
def runLoop : Nat → State → Host.Outcome State Fault Refusal
  | 0, s => .next s
  | k + 1, s =>
    if live s then
      match step s with
      | .next t => runLoop k t
      | .fault r => .fault r
      | .refused r => .refused r
    else .next s

/-- `Run(s)` (R80): every iteration counts one or sets the fault record, so the loop's condition is false after BUDGET
iterations at most (R83). -/
def run (s : State) : Host.Outcome State Fault Refusal := runLoop s.cfg.budget s

/-- The numeric code of a cause (60_exceptions.md section 2, decision D7); nothing reads it. -/
def causeCode : FailureCause → Nat
  | .illegalWord _ => 1
  | .addrOutOfBounds _ => 2
  | .pcOutOfBounds _ => 3

/-- The value a cause records (60_exceptions.md section 2). -/
def causeValue : FailureCause → Int
  | .illegalWord w => w.toInt
  | .addrOutOfBounds addr => addr
  | .pcOutOfBounds t => t.toInt

/-- The detail line of a failure's message: given for IllegalWord, a free value for the others (R160, log entry 9). -/
def failureDetailText : FailureCause → String
  | .illegalWord _ => "Invalid instruction value: could not be fetched"
  | .addrOutOfBounds addr => Config.failureDetail 2 addr
  | .pcOutOfBounds t => Config.failureDetail 3 t.toInt

/-- The status message of a run (R160). -/
def messageText : RunOutcome → String
  | .halted => "HALT instruction reached"
  | .budgetExhausted => "Maximum instruction number reached"
  | .failed r => "Error running line " ++ toString r.fpc.toInt ++ ":\n" ++ failureDetailText r.cause

/-- The Execution Result: the snapshot a run hands to its caller (R166). -/
structure Result where
  message : String
  register : Int
  programCounter : Int
  instructionCount : Nat
  modifiedCells : List (Nat × Int)
deriving DecidableEq, Repr

/-- The Result of an ended run; `none` while the run goes on (R166). -/
def resultOf (s : State) : Option Result :=
  (outcomeOf s).map fun o =>
    { message := messageText o, register := s.acc.toInt, programCounter := s.pc.toInt, instructionCount := s.icount,
      modifiedCells := s.log.map fun p => (p.1, p.2.toInt) }

/-- What the core returns to the host: the Result of the run, or a rejected construction (R167). -/
inductive HostAnswer where
  | result (r : Result)
  | rejected (why : ConstructionFailure)
deriving DecidableEq, Repr

/-- The host's two interactions, construct and then run once to the end (R167). `none` would be a run that stops without
a Result, which no constructed machine has. -/
def serve (text : List Char) (excess budget : Int) : Option HostAnswer :=
  match constructText text excess budget with
  | .rejected why => some (.rejected why)
  | .machine s =>
    match run s with
    | .next t => (resultOf t).map .result
    | .fault _ => none
    | .refused _ => none

end Sys2Proof.Machine
end

