-- ==== Sys2Proof/Safety.lean ====
section
/-! DEFINITION. What every state of a run satisfies (spec 10_state.md), in the terms the statements use. -/

namespace Sys2Proof.Machine

/-- Every address of the table is the index of a cell an instruction can reach: below `N` and at most 255 (R36). -/
abbrev WithinReach {α : Type} (n : Nat) (l : List (Nat × α)) : Prop := ∀ p ∈ l, p.1 < n ∧ p.1 ≤ 255

/-- `AdvancePc(off)` succeeds on a state of a run: `0 <= pc + off <= min(N-1, 255)` (R86, R13). -/
abbrev TargetInReach (s : State) (off : Int) : Prop :=
  0 ≤ s.pc.toInt + off ∧ s.pc.toInt + off < s.cfg.memLen ∧ s.pc.toInt + off ≤ 255

/-- The program counter is the index of a cell (R13). -/
abbrev PcOnCell (s : State) : Prop := 0 ≤ s.pc.toInt ∧ s.pc.toInt < s.cfg.memLen

/-- The offset an instruction other than HALT advances the program counter by (R96). -/
def offsetOf : Instr → State → Int
  | .jump n, _ => n
  | .zjump n, s => if accIsZero s then n else 1
  | _, _ => 1

/-- The data address of an instruction (R35). -/
def addressOf : Instr → Option Nat
  | .read addr => some addr
  | .write addr => some addr
  | _ => none

/-- The state with a failure of the instruction at `pc` recorded and nothing else changed (R15, R94, R157). -/
abbrev recorded (s : State) (cause : FailureCause) : State :=
  { s with fault := some { cause := cause, fpc := s.pc } }

/-- A decimal literal: an optional `-`, then the digits, most significant first (R64, D14). -/
def literalText (neg : Bool) (digits : List Nat) : List Char :=
  (if neg then ['-'] else []) ++ digits.map Nat.digitChar

/-- The integer a decimal literal denotes. -/
def literalValue (neg : Bool) (digits : List Nat) : Int :=
  if neg then -((Nat.ofDigits 10 digits.reverse : Nat) : Int) else ((Nat.ofDigits 10 digits.reverse : Nat) : Int)

/-- The text is an `<int>` of this value: one or more decimal digits, leading zeros allowed, no `+` (R64, D14). -/
def IsLiteral (text : List Char) (v : Int) : Prop :=
  ∃ neg digits, digits ≠ [] ∧ (∀ d ∈ digits, d < 10) ∧ text = literalText neg digits ∧ v = literalValue neg digits

/-- The line is the kind's mnemonic and then a literal of each operand, each after exactly one space (R64, C8). -/
def Spells (line : List Char) (k : Kind) (ops : List Int) : Prop :=
  ops.length = arityOf k ∧
    ∃ texts, List.Forall₂ IsLiteral texts ops ∧ line = mnemonicOf k ++ texts.flatMap fun t => ' ' :: t

/-- A source line that carries an instruction: its spelling, between white space, before an optional comment (R62, R63). -/
def SourceLine (line : List Char) (i : Instr) : Prop :=
  ∃ lead body trail comment, line = lead ++ body ++ trail ++ comment ∧ Spells body i.kind i.operands ∧
    (∀ c ∈ lead, isSpace c = true) ∧ (∀ c ∈ trail, isSpace c = true) ∧
    (comment = [] ∨ ∃ rest, comment = '#' :: rest)

/-- The invariants the spec states of every state of a run. -/
structure State.Inv (s : State) : Prop where
  /-- The parameters are legal (R2). -/
  legal : s.cfg.Legal
  /-- The memory is in canonical form. -/
  memWf : Memory.wf s.mem
  /-- Every listed cell exists (R17, R30). -/
  memInBounds : ∀ p ∈ s.mem, p.1 < s.cfg.memLen
  /-- The program counter is the index of a cell (R13); at most 255 because it has nine signed bits. -/
  pcOnCell : PcOnCell s
  /-- The count is at most the budget (R16). -/
  icountLe : s.icount ≤ s.cfg.budget
  /-- The log is a partial map (R18). -/
  logRising : Rising s.log
  /-- The log's addresses are cells WRITE can reach (R18, R36). -/
  logInReach : WithinReach s.cfg.memLen s.log
  /-- A logged value is what the cell holds (R18). -/
  logAgrees : ∀ p ∈ s.log, memRead s.mem p.1 = cellOfAcc p.2
  /-- After a failure the program counter is the failing instruction's (R94, R166). -/
  faultPc : ∀ r ∈ s.fault, r.fpc = s.pc
  /-- A failed run was not halted: HALT raises nothing and no step follows it (R80, R82). -/
  faultRunning : s.fault.isSome → s.running = true
  /-- A failing step is not counted, so a failed run has budget left (R16, R80). -/
  faultCount : s.fault.isSome → s.icount < s.cfg.budget
  /-- IllegalWord is never raised (R151). -/
  faultLegal : ∀ r ∈ s.fault, ∀ w, r.cause ≠ .illegalWord w

end Sys2Proof.Machine
end

