-- ==== Sys2Proof/Certificates/Slice0/Obligations.lean ====
section
/-! DEFINITION. The statements for the provers. Each is about every state, unreachable ones too, unless an invariant of a
run is named as a premise. -/

open Sys2Proof Sys2Proof.Machine

/-! ## Words, decoder, encoder, assembler -/

/-- R3: `truncate9` is the low nine bits read as signed; it is total and leaves the nine-bit range alone. -/
def Obligations.Truncate9IsLowNineBitsSigned : Prop :=
  (∀ v : Int,
    (truncate9 v).toInt = (if 256 ≤ v % 512 then v % 512 - 512 else v % 512) ∧
    -256 ≤ (truncate9 v).toInt ∧ (truncate9 v).toInt ≤ 255 ∧
    (-256 ≤ v → v ≤ 255 → (truncate9 v).toInt = v)) ∧
  (truncate9 150).toInt = 150 ∧ (truncate9 256).toInt = -256 ∧ (truncate9 (-257)).toInt = 255 ∧
  (truncate9 382).toInt = -130 ∧ (truncate9 (-1)).toInt = -1

/-- R4, R5: `truncate8` validates, `signExtend8` undoes it on the legal range, and `extractBits` is the field of bits. -/
def Obligations.ByteNarrowingAndFields : Prop :=
  (∀ v : Int, -128 ≤ v → v ≤ 127 →
    ∃ b : Nat, truncate8 v = some b ∧ (b : Int) = v % 256 ∧ signExtend8 b = v) ∧
  (∀ v : Int, (v < -128 ∨ 127 < v) → truncate8 v = none) ∧
  (∀ b : Nat, b < 256 → signExtend8 b = if 128 ≤ b then (b : Int) - 256 else b) ∧
  (∀ value width offset : Nat,
    extractBits value width offset = value / 2 ^ offset % 2 ^ width ∧
    ∀ k, (extractBits value width offset).testBit k = (decide (k < width) && value.testBit (offset + k)))

/-- R61: the assembled word of every well-formed instruction decodes to that instruction, operands included; the
converse fails, since the decoder drops the ignored bits. -/
def Obligations.DecodeOfAssembledWord : Prop :=
  (∀ i : Instr, i.WellFormed →
    assembleOperands i.kind i.operands = some (encode i) ∧ decode (encode i) = some i) ∧
  (∀ v : Int, -128 ≤ v → v ≤ 127 → signExtend8 (v % 256).toNat = v) ∧
  ∃ w w' : Cell, w ≠ w' ∧ decode w = decode w'

/-- R57: the decoder is the total function of the rule's pseudocode, here in fields of bits. -/
def Obligations.DecodeIsTheOpcodeMap : Prop :=
  ∀ w : Cell,
    (w.toInt = -1 → decode w = some .halt) ∧
    (w.toInt ≠ -1 →
      (w.extractLsb' 16 3 = 1#3 →
        decode w = some (.add (w.extractLsb' 8 8).toInt (w.extractLsb' 0 8).toInt)) ∧
      (w.extractLsb' 16 3 = 2#3 → decode w = some (.shift (w.extractLsb' 8 8).toInt)) ∧
      (w.extractLsb' 16 3 = 3#3 → decode w = some (.jump (w.extractLsb' 8 8).toInt)) ∧
      (w.extractLsb' 16 3 = 4#3 → decode w = some (.zjump (w.extractLsb' 8 8).toInt)) ∧
      (w.extractLsb' 16 3 = 5#3 → decode w = some (.read (w.extractLsb' 8 8).toNat)) ∧
      (w.extractLsb' 16 3 = 6#3 → decode w = some (.write (w.extractLsb' 8 8).toNat)) ∧
      (w.extractLsb' 16 3 = 7#3 → decode w = some (.inc (w.extractLsb' 8 8).toInt)) ∧
      (w.extractLsb' 16 3 = 0#3 → decode w = some .nop)) ∧
    decode w ≠ none

/-- R58, which is the spec's decision D9: bits 23:19, and the operand bytes a kind does not use, do not matter. -/
def Obligations.DecoderIgnoresUnusedBits : Prop :=
  (∀ w w' : Cell, w ≠ haltWord → w' ≠ haltWord → opcodeField w = opcodeField w' →
    (opcodeField w ≠ 0 → op1Field w = op1Field w') → (opcodeField w = 1 → op2Field w = op2Field w') →
    decode w = decode w') ∧
  decode 0x0000FF#24 = some .nop ∧ decode 0x0712FF#24 = some (.inc 18) ∧ decode 0x080000#24 = some .nop ∧
  decode 0xF80000#24 = some .nop

/-- R51, R52, with decision D8 for the place of a single operand: the fields of every assembled word. -/
def Obligations.AssembledWordLayout : Prop :=
  encode .halt = 0xFFFFFF#24 ∧ encode .nop = 0x000000#24 ∧
  (∀ a b : Int, (encode (.add a b)).toNat = 0x010000 + (a % 256).toNat * 256 + (b % 256).toNat) ∧
  (∀ n : Int,
    (encode (.shift n)).toNat = 0x020000 + (n % 256).toNat * 256 ∧
    (encode (.jump n)).toNat = 0x030000 + (n % 256).toNat * 256 ∧
    (encode (.zjump n)).toNat = 0x040000 + (n % 256).toNat * 256 ∧
    (encode (.inc n)).toNat = 0x070000 + (n % 256).toNat * 256) ∧
  (∀ addr : Nat, addr ≤ 255 →
    (encode (.read addr)).toNat = 0x050000 + addr * 256 ∧ (encode (.write addr)).toNat = 0x060000 + addr * 256) ∧
  ∀ i : Instr, i ≠ .halt → (encode i).toNat ≤ 0x7FFFF

/-- R53, R54: whatever the word, the decoded operands are in the ranges of their fields. -/
def Obligations.DecodedInstructionsAreWellFormed : Prop :=
  ∀ (w : Cell) (i : Instr), decode w = some i → i.WellFormed

/-- Sanity: words written out from R55, one of each kind, and the word on which the priority order decides (R56). -/
def Obligations.SampleWordsDecode : Prop :=
  decode 0xFFFFFF#24 = some .halt ∧ decode 0x016432#24 = some (.add 100 50) ∧
  decode 0x02FF00#24 = some (.shift (-1)) ∧ decode 0x03FE00#24 = some (.jump (-2)) ∧
  decode 0x049C00#24 = some (.zjump (-100)) ∧ decode 0x05C800#24 = some (.read 200) ∧
  decode 0x06FF00#24 = some (.write 255) ∧ decode 0x078000#24 = some (.inc (-128)) ∧
  decode 0x07FFFF#24 = some (.inc (-1)) ∧ decode 0x000000#24 = some .nop

/-- R66, R67 (and decision D13 for addresses): a matched line assembles exactly when its operands are in range, and then
to the word of the instruction it spells. -/
def Obligations.LineAssemblesIffOperandsInRange : Prop :=
  ∀ (k : Kind) (ops : List Int) (w : Cell),
    assembleOperands k ops = some w ↔
      ∃ i : Instr, i.WellFormed ∧ i.kind = k ∧ i.operands = ops ∧ w = encode i

/-- R68, first sentence: the first line that matches no pattern rejects the program, by its 1-based line number, blank
and comment lines counted. -/
def Obligations.FirstUnmatchedLineIsReported : Prop :=
  ∀ (before : List (List Char)) (bad : List Char) (after : List (List Char)),
    (∀ l ∈ before, isBlank (stripComment l) = true ∨
      ∃ k ops w, parseLine (stripComment l) = some (k, ops) ∧ assembleOperands k ops = some w) →
    isBlank (stripComment bad) = false → parseLine (stripComment bad) = none →
    assembleLines 1 (before ++ bad :: after) = .rejected (.invalidLine (before.length + 1))

/-- R64, R65 (with decisions D14 and C8): a comment-stripped line matches a kind with these operands exactly when it is the
kind's mnemonic and a decimal literal of each operand, each after exactly one space. The mnemonics are R64's, in the
priority order, and every instruction has its kind's number of operands. -/
def Obligations.LineMatchesExactlyItsSpellings : Prop :=
  (∀ (line : List Char) (k : Kind) (ops : List Int), parseLine line = some (k, ops) ↔ Spells line k ops) ∧
  Kind.priority.map mnemonicOf =
    [['H', 'A', 'L', 'T'], ['A', 'D', 'D'], ['S', 'H', 'I', 'F', 'T'], ['J', 'U', 'M', 'P'], ['Z', 'J', 'U', 'M', 'P'],
      ['R', 'E', 'A', 'D'], ['W', 'R', 'I', 'T', 'E'], ['I', 'N', 'C'], ['N', 'O', 'P']] ∧
  ∀ i : Instr, i.operands.length = arityOf i.kind

/-- R62, R63, R66 (with decisions D14, D20 and C8, and log entry 5 for the white space): a text whose lines are each blank,
or carry a well-formed instruction, assembles to the words of its instructions, in order. -/
def Obligations.ProgramAssemblesToItsWordsInOrder : Prop :=
  ∀ source : List (List Char × Option Instr),
    (∀ p ∈ source, '\n' ∉ p.1) →
    (∀ p ∈ source, p.2 = none → isBlank (stripComment p.1) = true) →
    (∀ p ∈ source, ∀ i, p.2 = some i → i.WellFormed ∧ SourceLine p.1 i) →
    assemble (List.intercalate ['\n'] (source.map Prod.fst)) =
      .words ((source.filterMap Prod.snd).map encode)

/-- R69: a program of blank and comment lines only assembles to a memory of zero cells, which are NOPs. -/
def Obligations.BlankProgramIsAllZeroCells : Prop :=
  ∀ (text : List Char) (excess budget : Int),
    (∀ l ∈ splitOnChar '\n' text, isBlank (stripComment l) = true) → 0 < excess → 0 < budget →
    ∃ s, constructText text excess budget = .machine s ∧ s.cfg.progLen = 0 ∧ (s.cfg.memLen : Int) = excess ∧
      ∀ a, memRead s.mem a = 0 ∧ decode (memRead s.mem a) = some .nop

/-! ## Construction and the invariant -/

/-- R19: what construction leaves in every piece of state. -/
def Obligations.ConstructionLeavesResetValues : Prop :=
  ∀ (words : List Cell) (excess budget : Int), 0 < excess → 0 < budget →
    ∃ s, construct words excess budget = .machine s ∧
      s.acc = 0 ∧ s.pc = 0 ∧ s.running = true ∧ s.fault = none ∧ s.icount = 0 ∧ s.log = [] ∧
      (s.cfg.memLen : Int) = words.length + excess ∧ (s.cfg.budget : Int) = budget ∧
      (∀ (k : Nat) (h : k < words.length), memRead s.mem k = words[k]) ∧
      ∀ k : Nat, words.length ≤ k → memRead s.mem k = 0

/-- R2, R180: construction from words fails exactly on a non-positive parameter. -/
def Obligations.ConstructionRejectsNonPositive : Prop :=
  ∀ (words : List Cell) (excess budget : Int),
    (∃ why, construct words excess budget = .rejected why) ↔ excess ≤ 0 ∨ budget ≤ 0

/-- The reset state meets the invariant. Its parameters are log entry 1's choice. -/
def Obligations.ResetMeetsInvariant : Prop := State.reset.Inv

/-- Every constructed machine meets the invariant. -/
def Obligations.ConstructedMachineMeetsInvariant : Prop :=
  ∀ (words : List Cell) (excess budget : Int) (s : State), construct words excess budget = .machine s → s.Inv

/-- R13, R16, R18, R36, R82, R151: every step keeps the invariant, in both values of FAULT_COMMIT. -/
def Obligations.StepKeepsInvariant : Prop := ∀ s t : State, s.Inv → step s = .next t → t.Inv

/-- A step from a state of a run always answers a next state: the model's one fault needs a `pc` on no cell (R13). -/
def Obligations.StepNeverStopsInARun : Prop := ∀ s : State, s.Inv → ∃ t, step s = .next t

/-- R159, R150: every instruction may be executed in every state and answers a next state; a run-time failure is one. -/
def Obligations.EveryInstructionAnswersNext : Prop := ∀ (i : Instr) (s : State), ∃ t, exec i s = .next t

/-! ## The engine -/

/-- R81: with the run going on and `pc` on a cell that decodes, a step is the execution of that instruction. -/
def Obligations.StepRunsDecodedInstruction : Prop :=
  ∀ (s : State) (i : Instr), live s = true → PcOnCell s → decode (memRead s.mem s.pc.toInt.toNat) = some i →
    step s = exec i s

/-- R165, and log entry 2 for the form: once the run has halted, failed or used its budget, a step changes nothing. -/
def Obligations.EndedRunKeepsItsState : Prop :=
  ∀ s : State, (s.running = false ∨ s.fault.isSome = true ∨ s.cfg.budget ≤ s.icount) → step s = .next s

/-- R82: a run that no longer goes on has ended in exactly one of the three ways of the table, told apart by the state. -/
def Obligations.RunEndsInOneOfThreeWays : Prop :=
  (∀ s : State, s.Inv → live s = false →
    (s.fault = none ∧ s.running = false ∧ outcomeOf s = some .halted) ∨
    (s.fault = none ∧ s.running = true ∧ s.icount = s.cfg.budget ∧ outcomeOf s = some .budgetExhausted) ∨
    ∃ r, s.fault = some r ∧ outcomeOf s = some (.failed r)) ∧
  (∀ s : State, outcomeOf s = none ↔ live s = true) ∧
  (∀ s : State, s.fault = none → s.running = false → s.icount = s.cfg.budget → outcomeOf s = some .halted) ∧
  messageText .halted = "HALT instruction reached" ∧
  messageText .budgetExhausted = "Maximum instruction number reached" ∧
  ∀ r : FaultRecord, ∃ detail : String,
    messageText (.failed r) = "Error running line " ++ toString r.fpc.toInt ++ ":\n" ++ detail

/-- R83: each iteration either counts one or sets the fault record, and every run ends within BUDGET iterations. -/
def Obligations.EveryRunEnds : Prop :=
  (∀ s : State, s.Inv → live s = true →
    ∃ t, step s = .next t ∧
      ((t.icount = s.icount + 1 ∧ t.fault = none) ∨ (t.icount = s.icount ∧ t.fault.isSome = true))) ∧
  ∀ s : State, s.Inv → ∃ t, run s = .next t ∧ live t = false ∧ (outcomeOf t).isSome = true ∧ t.Inv ∧ t.cfg = s.cfg ∧
    ∀ k, s.cfg.budget ≤ k → runLoop k s = .next t

/-- R16 (its unbounded width is decision D15): a completed step counts one, HALT included, and a failing step none. -/
def Obligations.StepCountsCompletedInstructions : Prop :=
  ∀ s t : State, live s = true → step s = .next t →
    t.icount ≤ t.cfg.budget ∧
    ((t.fault = none ∧ t.icount = s.icount + 1) ∨ (t.fault ≠ none ∧ t.icount = s.icount))

/-- R94, R154, which is the spec's decision D5: with FAULT_COMMIT = precise a failing step changes the fault record and
nothing else. -/
def Obligations.FailingStepCommitsOnlyTheRecord : Prop :=
  ∀ s t : State, s.cfg.faultCommit = .precise → live s = true → step s = .next t → t.fault ≠ none →
    ∃ c, t = recorded s c

/-- D5's alternative, FAULT_COMMIT = effect_first: a failing step still keeps `pc`, the count and the run flag, and where
the `pc` update fails it keeps the effect that came before: for each of the five kinds D5 names, the fault record and that
effect are all that changes. -/
def Obligations.EffectFirstKeepsTheEffect : Prop :=
  (∀ s t : State, s.cfg.faultCommit = .effectFirst → live s = true → step s = .next t → t.fault ≠ none →
    t.pc = s.pc ∧ t.icount = s.icount ∧ t.running = s.running ∧ t.cfg = s.cfg) ∧
  ∀ s : State, s.cfg.faultCommit = .effectFirst → PcOnCell s → ¬ TargetInReach s 1 →
    (∀ a b : Int,
      exec (.add a b) s =
        .next { recorded s (.pcOutOfBounds (truncate9 (s.pc.toInt + 1))) with acc := truncate9 (a + b) }) ∧
    (∀ n : Int, ∃ r : Word9,
      exec (.shift n) s = .next { recorded s (.pcOutOfBounds (truncate9 (s.pc.toInt + 1))) with acc := r } ∧
      (n = 0 → r = s.acc) ∧ (n < 0 → r = truncate9 (s.acc.toInt * 2 ^ (-n).toNat)) ∧
      (0 < n → r = truncate9 (s.acc.toInt % 2 ^ s.cfg.shiftW / 2 ^ n.toNat))) ∧
    (∀ n : Int,
      exec (.inc n) s =
        .next { recorded s (.pcOutOfBounds (truncate9 (s.pc.toInt + 1))) with acc := truncate9 (s.acc.toInt + n) }) ∧
    (∀ addr : Nat, addr < s.cfg.memLen →
      exec (.read addr) s =
        .next { recorded s (.pcOutOfBounds (truncate9 (s.pc.toInt + 1))) with
          acc := truncate9 (memRead s.mem addr).toInt }) ∧
    ∀ addr : Nat, addr < s.cfg.memLen →
      ∃ t, exec (.write addr) s = .next t ∧
        t = { recorded s (.pcOutOfBounds (truncate9 (s.pc.toInt + 1))) with mem := t.mem, log := t.log } ∧
        memRead t.mem addr = cellOfAcc s.acc ∧ (∀ a, a ≠ addr → memRead t.mem a = memRead s.mem a) ∧
        tableGet t.log addr = some s.acc ∧ ∀ a, a ≠ addr → tableGet t.log a = tableGet s.log a

/-- R86, R153 (with decision D5 where an effect came first): an instruction whose target is out of reach fails with
PcOutOfBounds, records the normalized target and its own `pc`, and is not counted. -/
def Obligations.TargetOutOfReachFails : Prop :=
  ∀ (i : Instr) (s : State), i.WellFormed → i ≠ .halt → PcOnCell s → (∀ a ∈ addressOf i, a < s.cfg.memLen) →
    ¬ TargetInReach s (offsetOf i s) →
    ∃ t, exec i s = .next t ∧
      t.fault = some { cause := .pcOutOfBounds (truncate9 (s.pc.toInt + offsetOf i s)), fpc := s.pc } ∧
      t.pc = s.pc ∧ t.icount = s.icount ∧ t.running = s.running ∧
      (s.cfg.faultCommit = .precise → t = { s with fault := t.fault })

/-- R95, which is the spec's decision D6: READ and WRITE check the address first, whatever the `pc` update would do, and
in both values of FAULT_COMMIT change only the fault record. -/
def Obligations.AddressOutOfBoundsComesFirst : Prop :=
  ∀ (i : Instr) (s : State) (addr : Nat), addressOf i = some addr → s.cfg.memLen ≤ addr →
    exec i s = .next (recorded s (.addrOutOfBounds addr))

/-- R151: the decoder refuses no word, and no step raises IllegalWord. -/
def Obligations.IllegalWordIsNeverRaised : Prop :=
  (∀ w : Cell, decode w ≠ none) ∧
  ∀ (s t : State) (r : FaultRecord) (w : Cell), step s = .next t → t.fault = some r → r.cause = .illegalWord w →
    s.fault = some r

/-- R2: no step writes a parameter. -/
def Obligations.StepKeepsTheParameters : Prop :=
  ∀ s t : State, step s = .next t → t.cfg = s.cfg

/-- R86: `AdvancePc` succeeds exactly when the normalized target is an index of memory; on a state of a run and an
encodable offset that is exactly when `0 <= pc + off <= min(N-1, 255)`, and then `pc` is the plain sum. -/
def Obligations.AdvancePcSucceedsExactlyInReach : Prop :=
  (∀ (off : Int) (s : State),
    ((0 ≤ (truncate9 (s.pc.toInt + off)).toInt ∧ (truncate9 (s.pc.toInt + off)).toInt < s.cfg.memLen) →
      advancePc off s = .done { s with pc := truncate9 (s.pc.toInt + off) }) ∧
    (((truncate9 (s.pc.toInt + off)).toInt < 0 ∨ s.cfg.memLen ≤ (truncate9 (s.pc.toInt + off)).toInt) →
      advancePc off s = .raised (.pcOutOfBounds (truncate9 (s.pc.toInt + off))) s)) ∧
  ∀ (off : Int) (s : State), PcOnCell s → -128 ≤ off → off ≤ 127 →
    (TargetInReach s off ↔ ∃ t, advancePc off s = .done t) ∧
    (TargetInReach s off → ∃ t, advancePc off s = .done t ∧ t.pc.toInt = s.pc.toInt + off) ∧
    advancePc 0 s = .done s

/-! ## The instructions: completion and result -/

/-- R100: HALT completes in every state, keeps `pc` and everything else, clears the run flag, and ends the run as halted
even when it is the last instruction of the budget. -/
def Obligations.HaltStopsTheRun : Prop :=
  encode .halt = 0xFFFFFF#24 ∧ decode 0xFFFFFF#24 = some .halt ∧
  (∀ s : State, exec .halt s = .next { s with running := false, icount := s.icount + 1 }) ∧
  (∀ s : State, live s = true → PcOnCell s → memRead s.mem s.pc.toInt.toNat = haltWord →
    ∃ t, step s = .next t ∧ live t = false ∧ outcomeOf t = some .halted ∧ t.pc = s.pc ∧
      t.icount = s.icount + 1) ∧
  cellOfAcc (-1) = haltWord ∧ truncate9 haltWord.toInt = -1

/-- R101: NOP completes with `pc + 1`, or fails where that is no reachable cell; every word with opcode 0 is a NOP. -/
def Obligations.NopOnlyAdvances : Prop :=
  (∀ w : Cell, opcodeField w = 0 → decode w = some .nop) ∧ encode .nop = 0x000000#24 ∧
  (∀ s : State, TargetInReach s 1 →
    exec .nop s = .next { s with pc := truncate9 (s.pc.toInt + 1), icount := s.icount + 1 }) ∧
  ∀ s : State, PcOnCell s → ¬ TargetInReach s 1 →
    exec .nop s = .next (recorded s (.pcOutOfBounds (truncate9 (s.pc.toInt + 1))))

/-- R92: ADD loads the normalized sum of its immediates, whatever the old accumulator. That this is the sum itself for every
encodable pair is R110's own inference from the operand range ("so `truncate9` never changes it and ADD never wraps"). -/
def Obligations.AddLoadsTheSum : Prop :=
  ∀ (a b : Int) (s : State), (Instr.add a b).WellFormed → TargetInReach s 1 →
    exec (.add a b) s =
      .next { s with acc := truncate9 (a + b), pc := truncate9 (s.pc.toInt + 1), icount := s.icount + 1 } ∧
    (truncate9 (a + b)).toInt = a + b ∧ (truncate9 (s.pc.toInt + 1)).toInt = s.pc.toInt + 1

/-- R111, with decisions D3 and D4: SHIFT by its exact count, right and logical over the SHIFT_W-bit pattern for a
positive count, left for a negative one, normalized once. -/
def Obligations.ShiftIsExactAndLogical : Prop :=
  ∀ (n : Int) (s : State), (Instr.shift n).WellFormed → TargetInReach s 1 →
    ∃ r : Word9,
      exec (.shift n) s =
        .next { s with acc := r, pc := truncate9 (s.pc.toInt + 1), icount := s.icount + 1 } ∧
      (n = 0 → r = s.acc) ∧
      (n < 0 → r = truncate9 (s.acc.toInt * 2 ^ (-n).toNat) ∧ r = s.acc <<< (-n).toNat) ∧
      (0 < n → r = truncate9 (s.acc.toInt % 2 ^ s.cfg.shiftW / 2 ^ n.toNat)) ∧
      (0 < n → s.cfg.shiftW = 9 →
        r = s.acc >>> n.toNat ∧ r.toInt = s.acc.toInt % 512 / 2 ^ n.toNat ∧ 0 ≤ r.toInt ∧ r.toInt ≤ 255) ∧
      (0 < n → 9 ≤ s.cfg.shiftW → 0 ≤ s.acc.toInt → r.toInt = s.acc.toInt / 2 ^ n.toNat) ∧
      (9 ≤ n → s.cfg.shiftW = 9 → r = 0) ∧ (n ≤ -9 → r = 0) ∧
      (n = -8 → r.toInt = if s.acc.toInt % 2 = 1 then -256 else 0) ∧ (s.acc = 0 → r = 0)

/-- R87: INC adjusts the accumulator by its operand, normalized: it wraps by 512 and never fails by overflow. -/
def Obligations.IncAddsAndWraps : Prop :=
  ∀ (n : Int) (s : State), (Instr.inc n).WellFormed → TargetInReach s 1 →
    exec (.inc n) s =
      .next { s with acc := truncate9 (s.acc.toInt + n), pc := truncate9 (s.pc.toInt + 1), icount := s.icount + 1 } ∧
    (truncate9 (s.acc.toInt + n)).toInt =
      (if 255 < s.acc.toInt + n then s.acc.toInt + n - 512
       else if s.acc.toInt + n < -256 then s.acc.toInt + n + 512
       else s.acc.toInt + n)

/-- R130: JUMP goes to its own address plus the operand, without wrapping, or fails; `JUMP 1` is a NOP; `JUMP 0` loops to
the end of the budget. -/
def Obligations.JumpIsRelativeToItself : Prop :=
  (∀ n : Int, (encode (.jump n)).toNat = 0x030000 + (n % 256).toNat * 256) ∧
  (∀ w : Cell, w.extractLsb' 16 3 = 3#3 → decode w = some (.jump (w.extractLsb' 8 8).toInt)) ∧
  (∀ (n : Int) (s : State), TargetInReach s n →
    exec (.jump n) s = .next { s with pc := truncate9 (s.pc.toInt + n), icount := s.icount + 1 } ∧
    (truncate9 (s.pc.toInt + n)).toInt = s.pc.toInt + n) ∧
  (∀ (n : Int) (s : State), (Instr.jump n).WellFormed → PcOnCell s → ¬ TargetInReach s n →
    exec (.jump n) s = .next (recorded s (.pcOutOfBounds (truncate9 (s.pc.toInt + n))))) ∧
  (∀ s : State, exec (.jump 1) s = exec .nop s) ∧
  ∀ s : State, live s = true → PcOnCell s → decode (memRead s.mem s.pc.toInt.toNat) = some (.jump 0) →
    run s = .next { s with icount := s.cfg.budget }

/-- R131: ZJUMP takes JUMP's path exactly when the stored accumulator is 0 and falls through otherwise, failing on the
path taken only; `ZJUMP 1` is a NOP; `ZJUMP 0` on zero loops to the end of the budget. -/
def Obligations.ZjumpTestsTheStoredAccumulator : Prop :=
  (∀ n : Int, (encode (.zjump n)).toNat = 0x040000 + (n % 256).toNat * 256) ∧
  (∀ w : Cell, w.extractLsb' 16 3 = 4#3 → decode w = some (.zjump (w.extractLsb' 8 8).toInt)) ∧
  (∀ (n : Int) (s : State), s.acc.toInt = 0 → TargetInReach s n →
    exec (.zjump n) s = .next { s with pc := truncate9 (s.pc.toInt + n), icount := s.icount + 1 } ∧
    (truncate9 (s.pc.toInt + n)).toInt = s.pc.toInt + n) ∧
  (∀ (n : Int) (s : State), s.acc.toInt ≠ 0 → TargetInReach s 1 →
    exec (.zjump n) s = .next { s with pc := truncate9 (s.pc.toInt + 1), icount := s.icount + 1 } ∧
    (truncate9 (s.pc.toInt + 1)).toInt = s.pc.toInt + 1) ∧
  (∀ (n : Int) (s : State), (Instr.zjump n).WellFormed → PcOnCell s → s.acc.toInt = 0 → ¬ TargetInReach s n →
    exec (.zjump n) s = .next (recorded s (.pcOutOfBounds (truncate9 (s.pc.toInt + n))))) ∧
  (∀ (n : Int) (s : State), PcOnCell s → s.acc.toInt ≠ 0 → ¬ TargetInReach s 1 →
    exec (.zjump n) s = .next (recorded s (.pcOutOfBounds (truncate9 (s.pc.toInt + 1))))) ∧
  (∀ s : State, exec (.zjump 1) s = exec .nop s) ∧
  ∀ s : State, live s = true → PcOnCell s → s.acc.toInt = 0 →
    decode (memRead s.mem s.pc.toInt.toNat) = some (.zjump 0) → run s = .next { s with icount := s.cfg.budget }

/-- R89: READ loads the low nine bits of the cell, read as signed, or raises AddrOutOfBounds on an address outside memory
and loads nothing. What happens where the `pc` update would fail too is decision D6 and stands in
AddressOutOfBoundsComesFirst. -/
def Obligations.ReadLoadsTheCell : Prop :=
  (∀ (addr : Nat) (s : State), addr < s.cfg.memLen → TargetInReach s 1 →
    exec (.read addr) s =
      .next { s with
        acc := truncate9 (memRead s.mem addr).toInt, pc := truncate9 (s.pc.toInt + 1), icount := s.icount + 1 } ∧
    truncate9 (memRead s.mem addr).toInt = (memRead s.mem addr).extractLsb' 0 9) ∧
  (∀ (addr : Nat) (s : State), s.cfg.memLen ≤ addr → readCell addr s = .raised (.addrOutOfBounds addr) s) ∧
  ∀ (addr : Nat) (s : State), s.cfg.memLen ≤ addr → TargetInReach s 1 →
    exec (.read addr) s = .next (recorded s (.addrOutOfBounds addr))

/-- R90, R34: WRITE stores the sign-extended accumulator in the whole cell and logs it, or raises AddrOutOfBounds on an
address outside memory and stores nothing. What happens where the `pc` update would fail too is decision D6 and stands in
AddressOutOfBoundsComesFirst. -/
def Obligations.WriteStoresAndLogs : Prop :=
  (∀ (addr : Nat) (s : State), addr < s.cfg.memLen → TargetInReach s 1 →
    ∃ t, exec (.write addr) s = .next t ∧
      t = { s with mem := t.mem, log := t.log, pc := truncate9 (s.pc.toInt + 1), icount := s.icount + 1 } ∧
      memRead t.mem addr = cellOfAcc s.acc ∧ (memRead t.mem addr).toInt = s.acc.toInt ∧
      (∀ a, a ≠ addr → memRead t.mem a = memRead s.mem a) ∧
      tableGet t.log addr = some s.acc ∧ ∀ a, a ≠ addr → tableGet t.log a = tableGet s.log a) ∧
  (∀ (addr : Nat) (s : State), s.cfg.memLen ≤ addr → writeCell addr s = .raised (.addrOutOfBounds addr) s) ∧
  ∀ (addr : Nat) (s : State), s.cfg.memLen ≤ addr → TargetInReach s 1 →
    exec (.write addr) s = .next (recorded s (.addrOutOfBounds addr))

/-! ## Frames -/

/-- What every instruction but HALT leaves of the bookkeeping: it completes, is counted and keeps the fault record, or it
fails, is not counted and keeps `pc`. -/
def Obligations.CompletesOrFailsFrame : Prop :=
  ∀ (i : Instr) (s t : State), i ≠ .halt → exec i s = .next t →
    t.cfg = s.cfg ∧ t.running = s.running ∧
    ((t.fault = s.fault ∧ t.icount = s.icount + 1) ∨
      (t.icount = s.icount ∧ t.pc = s.pc ∧ ∃ c, t.fault = some { cause := c, fpc := s.pc }))

/-- The frame of the instructions that write the accumulator, ADD, SHIFT, INC and READ: no cell, no log entry, no
parameter and no run flag changes. -/
def Obligations.AccumulatorFormsFrame : Prop :=
  ∀ (i : Instr) (s t : State), i.kind ∈ [Kind.add, Kind.shift, Kind.inc, Kind.read] → exec i s = .next t →
    t.cfg = s.cfg ∧ t.running = s.running ∧ t.log = s.log ∧ ∀ a, memRead t.mem a = memRead s.mem a

/-- The frame of HALT, NOP, JUMP and ZJUMP: the accumulator, every cell and the log are unchanged; HALT alone writes the
run flag, and it keeps `pc` and the fault record. -/
def Obligations.ControlFormsFrame : Prop :=
  ∀ (i : Instr) (s t : State), i.kind ∈ [Kind.halt, Kind.nop, Kind.jump, Kind.zjump] → exec i s = .next t →
    t.cfg = s.cfg ∧ t.acc = s.acc ∧ t.log = s.log ∧ (∀ a, memRead t.mem a = memRead s.mem a) ∧
    (i ≠ .halt → t.running = s.running) ∧ (i = .halt → t.pc = s.pc ∧ t.fault = s.fault)

/-- The frame of WRITE: the accumulator, the parameters, the run flag, every cell but the one at its address and every log
entry but that one's are unchanged, whether it completes or fails. -/
def Obligations.StoreFormFrame : Prop :=
  ∀ (addr : Nat) (s t : State), exec (.write addr) s = .next t →
    t.cfg = s.cfg ∧ t.acc = s.acc ∧ t.running = s.running ∧
    (∀ a, a ≠ addr → memRead t.mem a = memRead s.mem a) ∧
    ∀ a, a ≠ addr → tableGet t.log a = tableGet s.log a

/-! ## Memory, log and reach -/

/-- R39, R140: a WRITE followed by a READ of the same cell gives the accumulator back. -/
def Obligations.ReadAfterWriteReturnsTheValue : Prop :=
  ∀ (addr : Nat) (s : State), addr < s.cfg.memLen → TargetInReach s 1 → TargetInReach s 2 →
    ∃ t u, exec (.write addr) s = .next t ∧ exec (.read addr) { t with acc := 0 } = .next u ∧ u.acc = s.acc

/-- R41, R59: a store into the next cell is what the next step fetches, and the stored value runs as HALT, NOP or
`INC -1`. -/
def Obligations.StoreIntoTheNextCellIsExecuted : Prop :=
  ∀ (addr : Nat) (s : State), TargetInReach s 1 → (addr : Int) = s.pc.toInt + 1 →
    ∃ t, exec (.write addr) s = .next t ∧ t.pc.toInt = addr ∧
      (live t = true → step t =
        exec (if s.acc.toInt = -1 then .halt else if 0 ≤ s.acc.toInt then .nop else .inc (-1)) t)

/-- R18: one step changes the log in one way only, a completed WRITE's entry at its address (FAULT_COMMIT = precise). -/
def Obligations.OnlyCompletedWritesAreLogged : Prop :=
  ∀ (s t : State) (i : Instr), s.cfg.faultCommit = .precise → live s = true → PcOnCell s →
    decode (memRead s.mem s.pc.toInt.toNat) = some i → step s = .next t →
    ∀ a, tableGet t.log a = if i = .write a ∧ t.fault = none then some s.acc else tableGet s.log a

/-- R36: no step changes, or logs, a cell from 256 on. -/
def Obligations.HighCellsNeverChange : Prop :=
  ∀ s t : State, step s = .next t →
    ∀ a, 256 ≤ a → memRead t.mem a = memRead s.mem a ∧ tableGet t.log a = tableGet s.log a

/-- R36: cells from 256 on have no influence: two states that differ only there step to two that differ only there. -/
def Obligations.HighCellsHaveNoInfluence : Prop :=
  ∀ (s t : State) (mem' : Memory), (∀ a, a < 256 → memRead mem' a = memRead s.mem a) → step s = .next t →
    ∃ mem'', step { s with mem := mem' } = .next { t with mem := mem'' } ∧
      ∀ a, a < 256 → memRead mem'' a = memRead t.mem a

/-! ## The result -/

/-- R166: an ended run has a Result, the snapshot of its final state; after a failure its program counter is the failing
instruction's. -/
def Obligations.ResultIsTheFinalSnapshot : Prop :=
  ∀ s : State, s.Inv → live s = false →
    ∃ r o, resultOf s = some r ∧ outcomeOf s = some o ∧ r.message = messageText o ∧ r.register = s.acc.toInt ∧
      r.programCounter = s.pc.toInt ∧ r.instructionCount = s.icount ∧ r.instructionCount ≤ s.cfg.budget ∧
      r.modifiedCells = s.log.map (fun p => (p.1, p.2.toInt)) ∧
      ∀ f, s.fault = some f → r.programCounter = f.fpc.toInt

/-- R167, R38: the call returns for every program text and every parameters, with the Result of an ended run or the
reason the construction was rejected. -/
def Obligations.HostIsAlwaysAnswered : Prop :=
  ∀ (text : List Char) (excess budget : Int),
    (∃ why, constructText text excess budget = .rejected why ∧ serve text excess budget = some (.rejected why)) ∨
    ∃ s t r, constructText text excess budget = .machine s ∧ run s = .next t ∧ live t = false ∧
      resultOf t = some r ∧ serve text excess budget = some (.result r) ∧ (r.instructionCount : Int) ≤ budget
end

