-- ==== Sys2Proof/Laws/Decode.lean ====
section
/-! SUPPORT. The fields of a packed word, and the kind a word's opcode field selects. -/

namespace Sys2Proof

open Sys2Proof.Machine

/-- The `|` of R51 is a sum: the three fields do not overlap. -/
theorem packWord_toNat {c x y : Nat} (hc : c < 8) (hx : x < 256) (hy : y < 256) :
    (packWord c x y).toNat = c * 65536 + x * 256 + y := by
  have h1 : x <<< 8 ||| y = x <<< 8 + y := (Nat.shiftLeft_add_eq_or_of_lt (i := 8) hy x).symm
  have h2 : x <<< 8 + y < 2 ^ 16 := by rw [Nat.shiftLeft_eq]; omega
  have h3 := (Nat.shiftLeft_add_eq_or_of_lt h2 c).symm
  simp only [packWord, BitVec.toNat_ofNat]
  rw [Nat.or_assoc, h1, h3, Nat.shiftLeft_eq, Nat.shiftLeft_eq]
  omega

theorem opcodeField_packWord {c x y : Nat} (hc : c < 8) (hx : x < 256) (hy : y < 256) :
    opcodeField (packWord c x y) = c := by
  simp only [opcodeField, extractBits, packWord_toNat hc hx hy]; omega

theorem op1Field_packWord {c x y : Nat} (hc : c < 8) (hx : x < 256) (hy : y < 256) :
    op1Field (packWord c x y) = x := by
  simp only [op1Field, extractBits, packWord_toNat hc hx hy]; omega

theorem op2Field_packWord {c x y : Nat} (hc : c < 8) (hx : x < 256) (hy : y < 256) :
    op2Field (packWord c x y) = y := by
  simp only [op2Field, extractBits, packWord_toNat hc hx hy]; omega

/-- A packed word leaves bits 23:19 zero, so it is not HALT (R52). -/
theorem packWord_ne_haltWord {c x y : Nat} (hc : c < 8) (hx : x < 256) (hy : y < 256) :
    packWord c x y ≠ haltWord := by
  intro h
  have := congrArg BitVec.toNat h
  rw [packWord_toNat hc hx hy] at this
  simp [haltWord] at this; omega

theorem opcodeField_lt (w : Cell) : opcodeField w < 8 := Nat.mod_lt _ (by decide)
theorem op1Field_lt (w : Cell) : op1Field w < 256 := Nat.mod_lt _ (by decide)
theorem op2Field_lt (w : Cell) : op2Field w < 256 := Nat.mod_lt _ (by decide)

theorem signedField_lt (v : Int) : signedField v < 256 := by simp only [signedField]; omega
theorem addressField_lt (a : Nat) : addressField a < 256 := Nat.mod_lt _ (by decide)

/-- A signed operand in range survives the packing into a byte (R61). -/
theorem signedOperand_signedField {v : Int} (h : inSignedByte v = true) : signedOperand (signedField v) = v := by
  simp only [inSignedByte, Bool.and_eq_true, decide_eq_true_eq] at h
  have hb : ((v % 256).toNat : Int) = v % 256 := Int.toNat_of_nonneg (by omega)
  unfold signedOperand signExtend8 signedField
  by_cases hs : 128 ≤ (v % 256).toNat
  · rw [if_pos hs]; omega
  · rw [if_neg hs]; omega

/-- An address in range survives the packing into a byte (R61). -/
theorem addressOperand_addressField {a : Nat} (h : inAddressByte a = true) : addressOperand (addressField a) = a := by
  simp only [inAddressByte, decide_eq_true_eq] at h
  simp only [addressOperand, addressField]; omega

/-- A field read as a signed operand is in the signed byte range (R53). -/
theorem inSignedByte_signedOperand {b : Nat} (h : b < 256) : inSignedByte (signedOperand b) = true := by
  unfold inSignedByte signedOperand signExtend8
  split <;> simp <;> omega

theorem inAddressByte_addressOperand {b : Nat} (h : b < 256) : inAddressByte (addressOperand b) = true := by
  unfold inAddressByte addressOperand
  simp; omega

/-- HALT is tried first, so the word -1 is HALT (R56). -/
theorem kindOfWord_haltWord : kindOfWord haltWord = some .halt := by decide

/-- The kind of an opcode, the table of R55 read the other way. -/
def kindOfOpcode : Nat → Kind
  | 0 => .nop
  | 1 => .add
  | 2 => .shift
  | 3 => .jump
  | 4 => .zjump
  | 5 => .read
  | 6 => .write
  | _ => .inc

/-- The scan selects the kind whose opcode the word holds, unless the word is HALT (R56). -/
theorem kindOfWord_of_opcode {w : Cell} (hw : w ≠ haltWord) : kindOfWord w = some (kindOfOpcode (opcodeField w)) := by
  have hlt := opcodeField_lt w
  simp only [kindOfWord, Kind.priority, List.find?, Kind.matchesWord, Kind.opcode, beq_eq_false_iff_ne.2 hw]
  generalize opcodeField w = c at hlt
  interval_cases c <;> rfl

end Sys2Proof
end

