-- ==== Sys2Proof/Laws/Memory.lean ====
section
/-! SUPPORT. Tables and memory: read after write, and that every memory operation keeps the canonical form. -/

namespace Sys2Proof.Machine

variable {α : Type}

theorem tableGet_tableSet (l : List (Nat × α)) (a b : Nat) (x : α) :
    tableGet (tableSet l a x) b = if b = a then some x else tableGet l b := by
  induction l with
  | nil => simp [tableSet, tableGet]
  | cons p rest ih =>
    obtain ⟨k, v⟩ := p
    simp only [tableSet]
    split
    · simp [tableGet]
    · split
      · next h => subst h; by_cases hb : b = a <;> simp [tableGet, hb]
      · next h => by_cases hb : b = k <;> simp [tableGet, hb, ih]; intro h2; omega

theorem tableGet_tableErase (l : List (Nat × α)) (a b : Nat) :
    tableGet (tableErase l a) b = if b = a then none else tableGet l b := by
  induction l with
  | nil => simp [tableErase, tableGet]
  | cons p rest ih =>
    obtain ⟨k, v⟩ := p
    simp only [tableErase, ne_eq, decide_not] at ih
    by_cases hk : k = a
    · subst hk; by_cases hb : b = k <;> simp_all [tableErase, tableGet]
    · by_cases hb : b = k
      · subst hb; simp [tableErase, tableGet, hk]
      · simp [tableErase, tableGet, hk, ih, hb]

theorem mem_tableSet {l : List (Nat × α)} {a : Nat} {x : α} {p : Nat × α} (h : p ∈ tableSet l a x) :
    p = (a, x) ∨ p ∈ l := by
  induction l with
  | nil => simp_all [tableSet]
  | cons q rest ih =>
    obtain ⟨k, v⟩ := q
    simp only [tableSet] at h
    split at h
    · simpa using h
    · split at h
      · rcases List.mem_cons.1 h with h | h <;> simp [h]
      · rcases List.mem_cons.1 h with h | h
        · simp [h]
        · rcases ih h with h | h <;> simp [h]

theorem mem_tableErase {l : List (Nat × α)} {a : Nat} {p : Nat × α} (h : p ∈ tableErase l a) : p ∈ l :=
  (List.mem_filter.1 h).1

theorem rising_tableSet {l : List (Nat × α)} (h : Rising l) (a : Nat) (x : α) : Rising (tableSet l a x) := by
  induction l with
  | nil => simp [tableSet]
  | cons q rest ih =>
    obtain ⟨k, v⟩ := q
    have hk := (List.pairwise_cons.1 h).1
    have hrest := (List.pairwise_cons.1 h).2
    simp only [tableSet]
    split
    · next hlt =>
      refine List.pairwise_cons.2 ⟨fun p hp => ?_, h⟩
      rcases List.mem_cons.1 hp with rfl | hp
      · exact hlt
      · exact Nat.lt_trans hlt (hk p hp)
    · split
      · next heq => subst heq; exact List.pairwise_cons.2 ⟨hk, hrest⟩
      · refine List.pairwise_cons.2 ⟨fun p hp => ?_, ih hrest⟩
        rcases mem_tableSet hp with rfl | hp
        · show k < a; omega
        · exact hk p hp

theorem rising_tableErase {l : List (Nat × α)} (h : Rising l) (a : Nat) : Rising (tableErase l a) :=
  List.Pairwise.filter _ h

/-- A key below every key of a rising table is not in it. -/
theorem tableGet_eq_none {l : List (Nat × α)} {a : Nat} (h : ∀ p ∈ l, p.1 ≠ a) : tableGet l a = none := by
  induction l with
  | nil => rfl
  | cons q rest ih =>
    obtain ⟨k, v⟩ := q
    have hk : a ≠ k := fun e => h (k, v) (by simp) e.symm
    simp [tableGet, hk, ih fun p hp => h p (List.mem_cons_of_mem _ hp)]

/-- In a rising table an entry is what its key looks up. -/
theorem tableGet_of_mem {l : List (Nat × α)} (h : Rising l) {p : Nat × α} (hp : p ∈ l) :
    tableGet l p.1 = some p.2 := by
  induction l with
  | nil => cases hp
  | cons q rest ih =>
    obtain ⟨k, v⟩ := q
    have hk := (List.pairwise_cons.1 h).1
    rcases List.mem_cons.1 hp with rfl | hp
    · simp [tableGet]
    · have : p.1 ≠ k := Nat.ne_of_gt (hk p hp)
      simp [tableGet, this, ih (List.pairwise_cons.1 h).2 hp]

/-- What a key looks up is an entry. -/
theorem mem_of_tableGet {l : List (Nat × α)} {a : Nat} {x : α} (h : tableGet l a = some x) : (a, x) ∈ l := by
  induction l with
  | nil => cases h
  | cons q rest ih =>
    obtain ⟨k, v⟩ := q
    by_cases hk : a = k
    · subst hk; simp [tableGet] at h; simp [h]
    · simp [tableGet, hk] at h; exact List.mem_cons_of_mem _ (ih h)

/-- A read after a write: the cell written holds the value, every other cell what it held. -/
theorem memRead_memWrite (m : Memory) (a b : Nat) (v : Cell) :
    memRead (memWrite m a v) b = if b = a then v else memRead m b := by
  unfold memRead memWrite
  split
  · next hv => subst hv; rw [tableGet_tableErase]; split <;> simp
  · rw [tableGet_tableSet]; split <;> simp

@[simp] theorem memRead_memWrite_same (m : Memory) (a : Nat) (v : Cell) : memRead (memWrite m a v) a = v := by
  simp [memRead_memWrite]

theorem memRead_memWrite_other {a b : Nat} (h : b ≠ a) (m : Memory) (v : Cell) :
    memRead (memWrite m a v) b = memRead m b := by
  simp [memRead_memWrite, h]

/-- A store keeps the canonical form of memory. -/
theorem memWrite_wf {m : Memory} (h : Memory.wf m) (a : Nat) (v : Cell) : Memory.wf (memWrite m a v) := by
  unfold memWrite
  split
  · exact ⟨rising_tableErase h.1 a, fun p hp => h.2 p (mem_tableErase hp)⟩
  · next hv =>
    refine ⟨rising_tableSet h.1 a v, fun p hp => ?_⟩
    rcases mem_tableSet hp with rfl | hp
    · exact hv
    · exact h.2 p hp

/-- A store lists no index but the one stored to and those listed before. -/
theorem mem_memWrite {m : Memory} {a : Nat} {v : Cell} {p : Nat × Cell} (h : p ∈ memWrite m a v) :
    p.1 = a ∨ p ∈ m := by
  unfold memWrite at h
  split at h
  · exact .inr (mem_tableErase h)
  · rcases mem_tableSet h with rfl | h
    · exact .inl rfl
    · exact .inr h

/-- Two memories in canonical form with the same content are the same data. -/
theorem memory_ext {m m' : Memory} (h : Memory.wf m) (h' : Memory.wf m')
    (same : ∀ a, memRead m a = memRead m' a) : m = m' := by
  induction m generalizing m' with
  | nil =>
    cases m' with
    | nil => rfl
    | cons q rest =>
      have := same q.1
      simp only [memRead, tableGet_of_mem h'.1 List.mem_cons_self] at this
      exact absurd this.symm (h'.2 q List.mem_cons_self)
  | cons p rest ih =>
    cases m' with
    | nil =>
      have := same p.1
      simp only [memRead, tableGet_of_mem h.1 List.mem_cons_self] at this
      exact absurd this (h.2 p List.mem_cons_self)
    | cons q rest' =>
      have hp := List.pairwise_cons.1 h.1
      have hq := List.pairwise_cons.1 h'.1
      have key : ∀ (x : Nat × Cell) (l : Memory), Memory.wf l → x ∈ l → memRead l x.1 = x.2 := by
        intro x l hl hx; simp [memRead, tableGet_of_mem hl.1 hx]
      have first : p.1 = q.1 := by
        rcases Nat.lt_trichotomy p.1 q.1 with hlt | heq | hlt
        · have e := same p.1
          rw [key p _ h List.mem_cons_self] at e
          have : tableGet (q :: rest') p.1 = none := tableGet_eq_none fun x hx => by
            rcases List.mem_cons.1 hx with rfl | hx
            · omega
            · have := hq.1 x hx; omega
          simp [memRead, this] at e
          exact absurd e (h.2 p List.mem_cons_self)
        · exact heq
        · have e := same q.1
          rw [key q _ h' List.mem_cons_self] at e
          have : tableGet (p :: rest) q.1 = none := tableGet_eq_none fun x hx => by
            rcases List.mem_cons.1 hx with rfl | hx
            · omega
            · have := hp.1 x hx; omega
          simp [memRead, this] at e
          exact absurd e.symm (h'.2 q List.mem_cons_self)
      have second : p.2 = q.2 := by
        have e := same p.1
        rw [key p _ h List.mem_cons_self, first, key q _ h' List.mem_cons_self] at e
        exact e
      have hpq : p = q := Prod.ext first second
      subst hpq
      have wr : Memory.wf rest := ⟨hp.2, fun x hx => h.2 x (List.mem_cons_of_mem _ hx)⟩
      have wr' : Memory.wf rest' := ⟨hq.2, fun x hx => h'.2 x (List.mem_cons_of_mem _ hx)⟩
      refine congrArg _ (ih wr wr' fun a => ?_)
      by_cases ha : a = p.1
      · have n1 : tableGet rest a = none := tableGet_eq_none fun x hx => by have := hp.1 x hx; omega
        have n2 : tableGet rest' a = none := tableGet_eq_none fun x hx => by have := hq.1 x hx; omega
        simp [memRead, n1, n2]
      · have e := same a
        obtain ⟨k, v⟩ := p
        simpa [memRead, tableGet, ha] using e

/-- The layout of a construction lists only indexes of program words, rising and non-zero. -/
theorem mem_layoutFrom {i : Nat} {ws : List Cell} {p : Nat × Cell} (h : p ∈ layoutFrom i ws) :
    i ≤ p.1 ∧ p.1 < i + ws.length ∧ p.2 ≠ 0 := by
  induction ws generalizing i with
  | nil => cases h
  | cons w ws ih =>
    simp only [layoutFrom] at h
    split at h
    · obtain ⟨h1, h2, h3⟩ := ih h
      exact ⟨by omega, by simp only [List.length_cons]; omega, h3⟩
    · next hw =>
      rcases List.mem_cons.1 h with rfl | h
      · exact ⟨Nat.le_refl _, by simp, hw⟩
      · obtain ⟨h1, h2, h3⟩ := ih h
        exact ⟨by omega, by simp only [List.length_cons]; omega, h3⟩

/-- The layout of a construction is in canonical form. -/
theorem layoutFrom_wf (i : Nat) (ws : List Cell) : Memory.wf (layoutFrom i ws) := by
  refine ⟨?_, fun p hp => (mem_layoutFrom hp).2.2⟩
  induction ws generalizing i with
  | nil => exact List.Pairwise.nil
  | cons w ws ih =>
    simp only [layoutFrom]
    split
    · exact ih _
    · exact List.pairwise_cons.2 ⟨fun p hp => (mem_layoutFrom hp).1, ih _⟩

/-- The memory of the reset state is in canonical form. -/
theorem reset_mem_wf : Memory.wf State.reset.mem := by decide

/-- Placing a word at the program counter keeps the canonical form. -/
theorem withFetchWord_wf {s : State} (h : Memory.wf s.mem) (nbits w : Nat) :
    Memory.wf (s.withFetchWord nbits w).mem := memWrite_wf h _ _

/-- The placed word is what the next fetch reads. -/
theorem fetch_withFetchWord {s : State} (h : pcInMemory s.cfg.memLen s.pc) (nbits w : Nat) :
    fetch (s.withFetchWord nbits w) = some (BitVec.ofNat 24 (w % 2 ^ nbits)) := by
  simp [fetch, State.withFetchWord, h]

end Sys2Proof.Machine
end

