-- ==== Sys2Proof/Laws/State.lean ====
section
/-! SUPPORT. One lemma per field and primitive: what the primitives that always succeed, and the taking of a failure,
leave in each field of State. -/

namespace Sys2Proof.Machine

variable (s at_ : State) (off n a b : Int) (c : FailureCause)

@[simp] theorem setHalted_cfg : (setHalted s).cfg = s.cfg := rfl
@[simp] theorem setHalted_mem : (setHalted s).mem = s.mem := rfl
@[simp] theorem setHalted_acc : (setHalted s).acc = s.acc := rfl
@[simp] theorem setHalted_pc : (setHalted s).pc = s.pc := rfl
@[simp] theorem setHalted_running : (setHalted s).running = false := rfl
@[simp] theorem setHalted_fault : (setHalted s).fault = s.fault := rfl
@[simp] theorem setHalted_icount : (setHalted s).icount = s.icount := rfl
@[simp] theorem setHalted_log : (setHalted s).log = s.log := rfl

@[simp] theorem adjustAcc_cfg : (adjustAcc off s).cfg = s.cfg := rfl
@[simp] theorem adjustAcc_mem : (adjustAcc off s).mem = s.mem := rfl
@[simp] theorem adjustAcc_acc : (adjustAcc off s).acc = truncate9 (s.acc.toInt + off) := rfl
@[simp] theorem adjustAcc_pc : (adjustAcc off s).pc = s.pc := rfl
@[simp] theorem adjustAcc_running : (adjustAcc off s).running = s.running := rfl
@[simp] theorem adjustAcc_fault : (adjustAcc off s).fault = s.fault := rfl
@[simp] theorem adjustAcc_icount : (adjustAcc off s).icount = s.icount := rfl
@[simp] theorem adjustAcc_log : (adjustAcc off s).log = s.log := rfl

@[simp] theorem shiftAcc_cfg : (shiftAcc n s).cfg = s.cfg := rfl
@[simp] theorem shiftAcc_mem : (shiftAcc n s).mem = s.mem := rfl
@[simp] theorem shiftAcc_acc : (shiftAcc n s).acc = truncate9 (shiftExact s.cfg.shiftW s.acc.toInt n) := rfl
@[simp] theorem shiftAcc_pc : (shiftAcc n s).pc = s.pc := rfl
@[simp] theorem shiftAcc_running : (shiftAcc n s).running = s.running := rfl
@[simp] theorem shiftAcc_fault : (shiftAcc n s).fault = s.fault := rfl
@[simp] theorem shiftAcc_icount : (shiftAcc n s).icount = s.icount := rfl
@[simp] theorem shiftAcc_log : (shiftAcc n s).log = s.log := rfl

@[simp] theorem setAccSum_cfg : (setAccSum a b s).cfg = s.cfg := rfl
@[simp] theorem setAccSum_mem : (setAccSum a b s).mem = s.mem := rfl
@[simp] theorem setAccSum_acc : (setAccSum a b s).acc = truncate9 (a + b) := rfl
@[simp] theorem setAccSum_pc : (setAccSum a b s).pc = s.pc := rfl
@[simp] theorem setAccSum_running : (setAccSum a b s).running = s.running := rfl
@[simp] theorem setAccSum_fault : (setAccSum a b s).fault = s.fault := rfl
@[simp] theorem setAccSum_icount : (setAccSum a b s).icount = s.icount := rfl
@[simp] theorem setAccSum_log : (setAccSum a b s).log = s.log := rfl

/-- Whatever FAULT_COMMIT is, the record names the cause and the `pc` at which the step began. -/
@[simp] theorem takeFailure_fault : (takeFailure c s at_).fault = some { cause := c, fpc := s.pc } := by
  cases h : s.cfg.faultCommit <;> simp [takeFailure, h]

/-- With `FAULT_COMMIT = precise` the record is the only change (R94). -/
theorem takeFailure_precise (h : s.cfg.faultCommit = .precise) :
    takeFailure c s at_ = { s with fault := some { cause := c, fpc := s.pc } } := by
  simp [takeFailure, h]

/-- With `FAULT_COMMIT = effect_first` the effects up to the failure are kept (D5). -/
theorem takeFailure_effectFirst (h : s.cfg.faultCommit = .effectFirst) :
    takeFailure c s at_ = { at_ with fault := some { cause := c, fpc := s.pc } } := by
  simp [takeFailure, h]

/-- What is true of the state at the step's start and of the state at the failure is true, the fault record apart, of
the state after the failure is taken. -/
theorem takeFailure_cases (P : State → Prop) (hs : P { s with fault := some { cause := c, fpc := s.pc } })
    (ha : P { at_ with fault := some { cause := c, fpc := s.pc } }) : P (takeFailure c s at_) := by
  cases h : s.cfg.faultCommit <;> simp only [takeFailure, h] <;> assumption

end Sys2Proof.Machine
end

