-- ==== Sys2Proof/Laws/Exec.lean ====
section
/-! SUPPORT. What the shared operations, one instruction and one step can do, said once. -/

namespace Sys2Proof.Machine

/-- Normalization as the balanced remainder modulo 512. -/
theorem truncate9_toInt (v : Int) : (truncate9 v).toInt = v.bmod 512 := by
  simp [truncate9, BitVec.toInt_ofInt]

/-- Normalization leaves the values of the nine-bit range alone. -/
theorem truncate9_toInt_of_range {v : Int} (h : -256 ≤ v) (h' : v < 256) : (truncate9 v).toInt = v := by
  rw [truncate9_toInt, Int.bmod_def]; split <;> omega

/-- A nine-bit word is in [-256, 255]. -/
theorem word9_range (w : Word9) : -256 ≤ w.toInt ∧ w.toInt < 256 := by
  have h1 := w.le_toInt; have h2 := w.toInt_lt
  simp at h1 h2; omega

@[simp] theorem truncate9_toInt_self (w : Word9) : truncate9 w.toInt = w := by
  simp [truncate9]

/-- The low nine bits of the cell that holds an accumulator value are that value (R140). -/
@[simp] theorem truncate9_cellOfAcc (v : Word9) : truncate9 (cellOfAcc v).toInt = v := by
  have h : (cellOfAcc v).toInt = v.toInt := BitVec.toInt_signExtend_of_le (by decide)
  rw [h, truncate9_toInt_self]

theorem pcInMemory_iff {n : Nat} {t : Word9} : pcInMemory n t = true ↔ 0 ≤ t.toInt ∧ t.toInt < n := by
  simp [pcInMemory]

/-- `AdvancePc` succeeds exactly when the normalized target is a cell. -/
theorem advancePc_done {off : Int} {s : State} (h : pcInMemory s.cfg.memLen (truncate9 (s.pc.toInt + off)) = true) :
    advancePc off s = .done { s with pc := truncate9 (s.pc.toInt + off) } := by
  simp [advancePc, h]

theorem advancePc_raised {off : Int} {s : State}
    (h : pcInMemory s.cfg.memLen (truncate9 (s.pc.toInt + off)) = false) :
    advancePc off s = .raised (.pcOutOfBounds (truncate9 (s.pc.toInt + off))) s := by
  simp [advancePc, h]

/-- A target in reach is a cell, and normalization does not change it (R86). -/
theorem pcInMemory_of_target {s : State} {off : Int} (h : TargetInReach s off) :
    pcInMemory s.cfg.memLen (truncate9 (s.pc.toInt + off)) = true := by
  rw [pcInMemory_iff, truncate9_toInt_of_range] <;> omega

/-- A target out of reach of a program counter on a cell, by an encodable offset, normalizes to no cell (R13, R86). -/
theorem not_pcInMemory_of_target {s : State} {off : Int} (hpc : PcOnCell s) (lo : -128 ≤ off) (hi : off ≤ 127)
    (h : ¬ TargetInReach s off) : pcInMemory s.cfg.memLen (truncate9 (s.pc.toInt + off)) = false := by
  have hr := word9_range s.pc
  rw [Bool.eq_false_iff, ne_eq, pcInMemory_iff, truncate9_toInt, Int.bmod_def]
  simp only [TargetInReach, PcOnCell] at *
  split <;> omega

/-- The state an instruction's effect leaves before its `pc` update (R96). -/
def effectOf : Instr → State → State
  | .halt, s => setHalted s
  | .nop, s => s
  | .add a b, s => setAccSum a b s
  | .shift n, s => shiftAcc n s
  | .jump _, s => s
  | .zjump _, s => s
  | .read addr, s => { s with acc := truncate9 (memRead s.mem addr).toInt }
  | .write addr, s => { s with mem := memWrite s.mem addr (cellOfAcc s.acc), log := tableSet s.log addr s.acc }
  | .inc n, s => adjustAcc n s

@[simp] theorem effectOf_cfg (i : Instr) (s : State) : (effectOf i s).cfg = s.cfg := by cases i <;> rfl
@[simp] theorem effectOf_pc (i : Instr) (s : State) : (effectOf i s).pc = s.pc := by cases i <;> rfl
@[simp] theorem effectOf_fault (i : Instr) (s : State) : (effectOf i s).fault = s.fault := by cases i <;> rfl
@[simp] theorem effectOf_icount (i : Instr) (s : State) : (effectOf i s).icount = s.icount := by cases i <;> rfl
theorem effectOf_running {i : Instr} (h : i ≠ .halt) (s : State) : (effectOf i s).running = s.running := by
  cases i <;> first | rfl | exact absurd rfl h

@[simp] theorem exec_halt (s : State) :
    exec .halt s = .next { s with running := false, icount := s.icount + 1 } := rfl

/-- An instruction whose address and target are in bounds completes: its effect, the new `pc`, one more counted. -/
theorem exec_completes {i : Instr} {s : State} (hi : i ≠ .halt) (haddr : ∀ a ∈ addressOf i, a < s.cfg.memLen)
    (hpc : pcInMemory s.cfg.memLen (truncate9 (s.pc.toInt + offsetOf i s)) = true) :
    exec i s = .next { effectOf i s with pc := truncate9 (s.pc.toInt + offsetOf i s), icount := s.icount + 1 } := by
  cases i with
  | halt => exact absurd rfl hi
  | nop =>
    simp only [offsetOf] at hpc
    simp [exec, execNop, advancePc_done hpc, settle, effectOf, offsetOf]
  | add a b =>
    have := advancePc_done (s := setAccSum a b s) hpc
    simp only [offsetOf] at this; simp [exec, execAdd, this, settle, effectOf, offsetOf]
  | shift n =>
    have := advancePc_done (s := shiftAcc n s) hpc
    simp only [offsetOf] at this; simp [exec, execShift, this, settle, effectOf, offsetOf]
  | inc n =>
    have := advancePc_done (s := adjustAcc n s) hpc
    simp only [offsetOf] at this; simp [exec, execInc, this, settle, effectOf, offsetOf]
  | jump n =>
    simp only [offsetOf] at hpc
    simp [exec, execJump, advancePc_done hpc, settle, effectOf, offsetOf]
  | zjump n =>
    simp only [offsetOf] at hpc ⊢
    by_cases hz : accIsZero s = true <;> simp only [hz, if_true, Bool.false_eq_true, if_false] at hpc ⊢ <;>
      simp [exec, execZjump, hz, advancePc_done hpc, settle, effectOf]
  | read a =>
    have ha : a < s.cfg.memLen := haddr a rfl
    have := advancePc_done (s := effectOf (.read a) s) hpc
    simp only [offsetOf, effectOf] at this
    simp [exec, execRead, readCell, ha, Attempt.andThen, this, settle, effectOf, offsetOf]
  | write a =>
    have ha : a < s.cfg.memLen := haddr a rfl
    have := advancePc_done (s := effectOf (.write a) s) hpc
    simp only [offsetOf, effectOf] at this
    simp [exec, execWrite, writeCell, ha, Attempt.andThen, this, settle, effectOf, offsetOf]

/-- A data address out of bounds fails before anything else (R95). -/
theorem exec_address_fails {i : Instr} {s : State} {a : Nat} (hi : addressOf i = some a) (ha : ¬ a < s.cfg.memLen) :
    exec i s = .next (takeFailure (.addrOutOfBounds a) s s) := by
  cases i <;> simp only [addressOf, Option.some.injEq, reduceCtorEq] at hi <;> subst hi
  · simp [exec, execRead, readCell, ha, Attempt.andThen, settle]
  · simp [exec, execWrite, writeCell, ha, Attempt.andThen, settle]

/-- A target out of bounds fails after the instruction's effect (R86, R94). -/
theorem exec_target_fails {i : Instr} {s : State} (hi : i ≠ .halt) (haddr : ∀ a ∈ addressOf i, a < s.cfg.memLen)
    (hpc : pcInMemory s.cfg.memLen (truncate9 (s.pc.toInt + offsetOf i s)) = false) :
    exec i s =
      .next (takeFailure (.pcOutOfBounds (truncate9 (s.pc.toInt + offsetOf i s))) s (effectOf i s)) := by
  cases i with
  | halt => exact absurd rfl hi
  | nop =>
    simp only [offsetOf] at hpc
    simp [exec, execNop, advancePc_raised hpc, settle, effectOf, offsetOf]
  | add a b =>
    have := advancePc_raised (s := setAccSum a b s) hpc
    simp only [offsetOf] at this; simp [exec, execAdd, this, settle, effectOf, offsetOf]
  | shift n =>
    have := advancePc_raised (s := shiftAcc n s) hpc
    simp only [offsetOf] at this; simp [exec, execShift, this, settle, effectOf, offsetOf]
  | inc n =>
    have := advancePc_raised (s := adjustAcc n s) hpc
    simp only [offsetOf] at this; simp [exec, execInc, this, settle, effectOf, offsetOf]
  | jump n =>
    simp only [offsetOf] at hpc
    simp [exec, execJump, advancePc_raised hpc, settle, effectOf, offsetOf]
  | zjump n =>
    simp only [offsetOf] at hpc ⊢
    by_cases hz : accIsZero s = true <;> simp only [hz, if_true, Bool.false_eq_true, if_false] at hpc ⊢ <;>
      simp [exec, execZjump, hz, advancePc_raised hpc, settle, effectOf]
  | read a =>
    have ha : a < s.cfg.memLen := haddr a rfl
    have := advancePc_raised (s := effectOf (.read a) s) hpc
    simp only [offsetOf, effectOf] at this
    simp [exec, execRead, readCell, ha, Attempt.andThen, this, settle, effectOf, offsetOf]
  | write a =>
    have ha : a < s.cfg.memLen := haddr a rfl
    have := advancePc_raised (s := effectOf (.write a) s) hpc
    simp only [offsetOf, effectOf] at this
    simp [exec, execWrite, writeCell, ha, Attempt.andThen, this, settle, effectOf, offsetOf]

/-- Everything an instruction can do: halt, complete, fail on its data address, or fail on its target. -/
theorem exec_cases {i : Instr} {s : State} {o : Host.Outcome State Fault Refusal} (h : exec i s = o) :
    (i = .halt ∧ o = .next { s with running := false, icount := s.icount + 1 }) ∨
    (i ≠ .halt ∧ (∀ a ∈ addressOf i, a < s.cfg.memLen) ∧
      pcInMemory s.cfg.memLen (truncate9 (s.pc.toInt + offsetOf i s)) = true ∧
      o = .next { effectOf i s with pc := truncate9 (s.pc.toInt + offsetOf i s), icount := s.icount + 1 }) ∨
    (∃ a, addressOf i = some a ∧ ¬ a < s.cfg.memLen ∧ o = .next (takeFailure (.addrOutOfBounds a) s s)) ∨
    (i ≠ .halt ∧ (∀ a ∈ addressOf i, a < s.cfg.memLen) ∧
      pcInMemory s.cfg.memLen (truncate9 (s.pc.toInt + offsetOf i s)) = false ∧
      o = .next (takeFailure (.pcOutOfBounds (truncate9 (s.pc.toInt + offsetOf i s))) s (effectOf i s))) := by
  subst h
  by_cases hi : i = .halt
  · subst hi; exact .inl ⟨rfl, rfl⟩
  refine .inr ?_
  by_cases haddr : ∀ a ∈ addressOf i, a < s.cfg.memLen
  · cases hpc : pcInMemory s.cfg.memLen (truncate9 (s.pc.toInt + offsetOf i s)) with
    | true => exact .inl ⟨hi, haddr, rfl, exec_completes hi haddr hpc⟩
    | false => exact .inr (.inr ⟨hi, haddr, rfl, exec_target_fails hi haddr hpc⟩)
  · simp only [not_forall] at haddr
    obtain ⟨a, ha, hlt⟩ := haddr
    exact .inr (.inl ⟨a, ha, hlt, exec_address_fails ha hlt⟩)

/-- Everything a step can do: nothing once the run has ended, stop where `pc` is on no cell, record an undecodable word,
or execute the instruction at `pc`. -/
theorem step_cases {s : State} {o : Host.Outcome State Fault Refusal} (h : step s = o) :
    (live s = false ∧ o = .next s) ∨
    (live s = true ∧ fetch s = none ∧ o = .fault .fetchOutsideMemory) ∨
    (∃ w, live s = true ∧ fetch s = some w ∧ decode w = none ∧ o = .next (takeFailure (.illegalWord w) s s)) ∨
    (∃ w i, live s = true ∧ fetch s = some w ∧ decode w = some i ∧ exec i s = o) := by
  subst h
  unfold step
  cases hl : live s with
  | false => simp
  | true =>
    cases hf : fetch s with
    | none => simp
    | some w => cases hd : decode w <;> simp [hd]

/-- A fetch reads the cell at a program counter that is on a cell, and only there. -/
theorem fetch_eq_some {s : State} {w : Cell} :
    fetch s = some w ↔ PcOnCell s ∧ memRead s.mem s.pc.toInt.toNat = w := by
  unfold fetch
  cases h : pcInMemory s.cfg.memLen s.pc with
  | true => have := pcInMemory_iff.1 h; simp [PcOnCell, this]
  | false =>
    have : ¬ PcOnCell s := fun hp => by simp [pcInMemory_iff.2 hp] at h
    simp [this]

end Sys2Proof.Machine
end

