-- ==== Sys2Proof/Laws/PerInstr.lean ====
section
/-! SUPPORT. Statements made per instruction. Family EncodedKind: the word of a well-formed instruction is owned, in the
priority scan of spec 30_encoding.md R56, by the instruction's own kind. -/

namespace Sys2Proof.Laws.EncodedKind

open Sys2Proof

/-- The scan over the canonical word of a well-formed instruction selects the instruction's kind. -/
def Statement (i : Instr) : Prop := i.WellFormed → kindOfWord (encode i) = some i.kind

theorem packed {c x y : Nat} (hc : c < 8) (hx : x < 256) (hy : y < 256) :
    kindOfWord (packWord c x y) = some (kindOfOpcode c) := by
  rw [kindOfWord_of_opcode (packWord_ne_haltWord hc hx hy), opcodeField_packWord hc hx hy]

theorem halt : Statement .halt := fun _ => kindOfWord_haltWord
theorem nop : Statement .nop := fun _ => packed (by decide) (by decide) (by decide)
theorem add (a b : Int) : Statement (.add a b) :=
  fun _ => packed (by decide) (signedField_lt a) (signedField_lt b)
theorem shift (n : Int) : Statement (.shift n) := fun _ => packed (by decide) (signedField_lt n) (by decide)
theorem jump (n : Int) : Statement (.jump n) := fun _ => packed (by decide) (signedField_lt n) (by decide)
theorem zjump (n : Int) : Statement (.zjump n) := fun _ => packed (by decide) (signedField_lt n) (by decide)
theorem read (addr : Nat) : Statement (.read addr) := fun _ => packed (by decide) (addressField_lt addr) (by decide)
theorem write (addr : Nat) : Statement (.write addr) := fun _ => packed (by decide) (addressField_lt addr) (by decide)
theorem inc (n : Int) : Statement (.inc n) := fun _ => packed (by decide) (signedField_lt n) (by decide)

end Sys2Proof.Laws.EncodedKind
end

