-- ==== Sys2Proof/Tests/Slice0.lean ====
section
/-! SUPPORT. Small tests and witnesses. Expected values are the spec's own vectors (95_test_vectors.md; the id is named at
each test) or its rules' examples. The witnesses show that the hypotheses of each statement of
Certificates/Slice0/Obligations.lean can be met, together, by a concrete state and concrete operands. -/

namespace Sys2Proof.Tests

open Sys2Proof.Machine

/-- A machine with these program words and this much excess memory, at a given accumulator and program counter. -/
def box (ws : List Cell) (excess : Nat) (acc pc : Word9) : State :=
  { State.reset with
    cfg := { Config.default with progLen := ws.length, excess := excess }, mem := layoutFrom 0 ws, acc := acc, pc := pc }

/-- The next state of an outcome. -/
def nextOf : Host.Outcome State Fault Refusal → Option State
  | .next s => some s
  | .fault _ => none
  | .refused _ => none

/-- What a test looks at: accumulator, program counter, count, run flag, fault record. -/
def view (o : Host.Outcome State Fault Refusal) : Option (Int × Int × Nat × Bool × Option FaultRecord) :=
  (nextOf o).map fun s => (s.acc.toInt, s.pc.toInt, s.icount, s.running, s.fault)

/-! ## Well-formedness: for each check a term it refuses (D-ENC, "Rejected by the assembler"), and the range's ends -/

theorem test_wf_add_first : (Instr.add 128 0).wf = false := by decide
theorem test_wf_add_second : (Instr.add 0 (-129)).wf = false := by decide
theorem test_wf_shift : (Instr.shift 128).wf = false := by decide
theorem test_wf_jump : (Instr.jump 300).wf = false := by decide
theorem test_wf_zjump : (Instr.zjump (-129)).wf = false := by decide
theorem test_wf_read : (Instr.read 256).wf = false := by decide
theorem test_wf_write : (Instr.write 256).wf = false := by decide
theorem test_wf_inc : (Instr.inc (-129)).wf = false := by decide
theorem test_wf_ends : (Instr.add (-128) 127).wf = true ∧ (Instr.read 255).wf = true ∧ (Instr.write 0).wf = true := by
  decide

/-! ## Decoding: words written out from R55 (D-ENC), and words the assembler does not make (D-DEC) -/

theorem test_decode_halt : decode 0xFFFFFF#24 = some .halt := by decide
theorem test_decode_nop : decode 0x000000#24 = some .nop := by decide
theorem test_decode_add : decode 0b000000010110010000110010#24 = some (.add 100 50) := by decide
theorem test_decode_add_ends : decode 0x01807F#24 = some (.add (-128) 127) := by decide
theorem test_decode_shift : decode 0b000000101111111100000000#24 = some (.shift (-1)) := by decide
theorem test_decode_jump : decode 0b000000111111111000000000#24 = some (.jump (-2)) := by decide
theorem test_decode_zjump : decode 0b000001001001110000000000#24 = some (.zjump (-100)) := by decide
theorem test_decode_read : decode 0b000001011100100000000000#24 = some (.read 200) := by decide
theorem test_decode_write : decode 0b000001101111111100000000#24 = some (.write 255) := by decide
theorem test_decode_inc : decode 0b000001111000000000000000#24 = some (.inc (-128)) := by decide
theorem test_decode_ignored : decode 0xF80000#24 = some .nop ∧ decode 0x0712FF#24 = some (.inc 18) := by decide
theorem test_decode_negative_data : decode 0xFFFFFC#24 = some (.inc (-1)) := by decide
theorem test_decode_inc_not_halt : decode 0x07FFFF#24 = some (.inc (-1)) := by decide
theorem test_table_word : decodeTableWord 24 0x060A00 = some (.write 10) := by decide
theorem test_encode : encode (.zjump 2) = 0x040200#24 ∧ encode (.write 255) = 0x06FF00#24 := by decide

/-! ## One step of each instruction -/

/-- D-HN-1. -/
theorem test_halt : view (step (box [0xFFFFFF#24] 60 0 0)) = some (0, 0, 1, false, none) := by decide
/-- D-HN-3, its last step. -/
theorem test_nop_last_cell :
    view (step (box [] 3 0 2)) = some (0, 2, 0, true, some ⟨.pcOutOfBounds 3, 2⟩) := by decide
/-- D-HN-5, its last step: 255 does not wrap, and the detail is -256. -/
theorem test_nop_cell_255 :
    view (step (box [] 301 0 255)) = some (0, 255, 0, true, some ⟨.pcOutOfBounds (-256), 255⟩) := by decide
/-- S1: the old accumulator is no input. -/
theorem test_add : view (step (box [0x016432#24] 60 77 0)) = some (150, 1, 1, true, none) := by decide
/-- D-ADD. -/
theorem test_add_lowest : view (exec (.add (-128) (-128)) (box [] 2 0 0)) = some (-256, 1, 1, true, none) := by decide
/-- S6. -/
theorem test_shift_right : view (step (box [0x020100#24] 60 (-4) 0)) = some (254, 1, 1, true, none) := by decide
/-- D-SH: 85 left by 2. -/
theorem test_shift_left : view (exec (.shift (-2)) (box [] 2 85 0)) = some (-172, 1, 1, true, none) := by decide
/-- D-INC. -/
theorem test_inc_wraps : view (step (box [0x077F00#24] 60 150 0)) = some (-235, 1, 1, true, none) := by decide
/-- P6, its fourth step: a failing step keeps the accumulator. -/
theorem test_inc_precise :
    view (step (box [0#24, 0#24, 0#24, 0#24, 0xFFFFFB#24] 0 (-5) 4)) =
      some (-5, 4, 0, true, some ⟨.pcOutOfBounds 5, 4⟩) := by decide
/-- R130, the example of JUMP -2 at cell 3. -/
theorem test_jump : view (step (box [0#24, 0#24, 0#24, 0x03FE00#24] 60 9 3)) = some (9, 1, 1, true, none) := by decide
/-- D-J-3. -/
theorem test_jump_below :
    view (step (box [0x03FF00#24] 60 0 0)) = some (0, 0, 0, true, some ⟨.pcOutOfBounds (-1), 0⟩) := by decide
/-- R131, the example of ZJUMP 2 at cell 2, taken. -/
theorem test_zjump_taken : view (step (box [0#24, 0#24, 0x040200#24] 60 0 2)) = some (0, 4, 1, true, none) := by decide
/-- D-J-10, its second step: -256 is not zero. -/
theorem test_zjump_not_taken :
    view (step (box [0#24, 0x040200#24] 60 (-256) 1)) = some (-256, 2, 1, true, none) := by decide
/-- D-RW-1. -/
theorem test_read :
    view (step (box [0x050200#24, 0xFFFFFF#24, 0x016432#24] 60 0 0)) = some (50, 1, 1, true, none) := by decide
/-- D-RW-3. -/
theorem test_read_out_of_bounds :
    view (step (box [0x050500#24, 0xFFFFFF#24] 3 0 0)) = some (0, 0, 0, true, some ⟨.addrOutOfBounds 5, 0⟩) := by decide
/-- P2, its fourth step: the cell holds the sign-extended accumulator. -/
theorem test_write :
    (nextOf (step (box [0x060B00#24] 60 (-235) 0))).map (fun s => (memRead s.mem 11, s.log, s.pc.toInt)) =
      some (0xFFFF15#24, [(11, -235)], 1) := by decide
/-- S2, its first step: a store of 0 is logged. -/
theorem test_write_zero :
    (nextOf (step (box [0x060000#24, 0xFFFFFF#24] 60 0 0))).map (fun s => (s.mem, s.log)) =
      some ([(1, 0xFFFFFF#24)], [(0, 0)]) := by decide
/-- U3: the same store in the last cell under FAULT_COMMIT = effect_first is kept, under precise it is not. -/
theorem test_effect_first :
    (nextOf (exec (.write 0) { box [] 1 7 0 with
      cfg := { Config.default with excess := 1, faultCommit := .effectFirst } })).map (fun s => s.log) = some [(0, 7)] ∧
    (nextOf (exec (.write 0) (box [] 1 7 0))).map (fun s => s.log) = some [] := by decide
/-- The one fault of the model: a fetch with `pc` on no cell (log entry 7). -/
theorem test_fetch_outside : step (box [] 3 0 3) = .fault .fetchOutsideMemory := rfl
/-- The placed word is what the first step after reset runs. -/
theorem test_with_fetch_word :
    view (step (State.reset.withFetchWord 24 0x070100)) = some (1, 1, 1, true, none) := by decide

/-! ## The assembler and the construction -/

/-- D-ENC: `ADD 100 50`, with a comment and white space. -/
theorem test_assemble_line :
    assemble ['#', 'x', '\n', ' ', 'A', 'D', 'D', ' ', '1', '0', '0', ' ', '5', '0', '\t', '#'] = .words [0x016432#24] := by
  decide
/-- D-ENC: `JUMP 300` is rejected for its operand, `NOP 1` for its trailing token, in the line it stands in. -/
theorem test_assemble_rejects :
    assemble ['J', 'U', 'M', 'P', ' ', '3', '0', '0'] = .rejected (.operandOutOfRange 1) ∧
    assemble ['\n', 'N', 'O', 'P', ' ', '1'] = .rejected (.invalidLine 2) ∧
    assemble ['I', 'N', 'C', ' ', '+', '5'] = .rejected (.invalidLine 1) := by decide
/-- S4: the empty program. -/
theorem test_construct_empty : constructText [] 60 100000 = .machine State.reset := by decide
/-- D-ENG-4, after its one step: the budget is used, the outcome is not halted. -/
theorem test_outcome_budget :
    outcomeOf { box [0#24, 0xFFFFFF#24] 60 0 1 with icount := 100000 } = some .budgetExhausted := by decide

/-! ## Witnesses: the hypotheses of the statements, met together -/

/-- A state of a run after one WRITE: a cell written, logged, and the count at one. -/
def written : State :=
  { box [0x060300#24, 0x07FF00#24] 3 7 1 with
    mem := [(0, 0x060300#24), (1, 0x07FF00#24), (3, 7#24)], icount := 1, log := [(3, 7)] }

/-- A failed run: NOP in the last cell. -/
def failed : State := { box [] 3 0 2 with fault := some ⟨.pcOutOfBounds 3, 2⟩ }

/-- A halted run. -/
def halted : State := { box [0xFFFFFF#24] 1 0 0 with running := false, icount := 1 }

/-- A run whose budget is used. -/
def spent : State := { box [] 60 0 0 with icount := 100000 }

theorem witness_inv_written : written.Inv where
  legal := by decide
  memWf := by decide
  memInBounds := by decide
  pcOnCell := by decide
  icountLe := by decide
  logRising := by decide
  logInReach := by decide
  logAgrees := by decide
  faultPc := by simp [written, box, State.reset]
  faultRunning := by decide
  faultCount := by decide
  faultLegal := by simp [written, box, State.reset]

theorem witness_inv_failed : failed.Inv where
  legal := by decide
  memWf := by decide
  memInBounds := by decide
  pcOnCell := by decide
  icountLe := by decide
  logRising := by decide
  logInReach := by decide
  logAgrees := by decide
  faultPc := by simp [failed, box, State.reset]
  faultRunning := by decide
  faultCount := by decide
  faultLegal := by simp [failed]

theorem witness_inv_halted : halted.Inv where
  legal := by decide
  memWf := by decide
  memInBounds := by decide
  pcOnCell := by decide
  icountLe := by decide
  logRising := by decide
  logInReach := by decide
  logAgrees := by decide
  faultPc := by simp [halted, box, State.reset]
  faultRunning := by decide
  faultCount := by decide
  faultLegal := by simp [halted, box, State.reset]

theorem witness_inv_spent : spent.Inv where
  legal := by decide
  memWf := by decide
  memInBounds := by decide
  pcOnCell := by decide
  icountLe := by decide
  logRising := by decide
  logInReach := by decide
  logAgrees := by decide
  faultPc := by simp [spent, box, State.reset]
  faultRunning := by decide
  faultCount := by decide
  faultLegal := by simp [spent, box, State.reset]

/-- Truncate9IsLowNineBitsSigned, ByteNarrowingAndFields, DecodeOfAssembledWord: the ends of each range. -/
theorem witness_ranges :
    ((-256 : Int) ≤ 255 ∧ (255 : Int) ≤ 255) ∧ ((-128 : Int) ≤ -128 ∧ (-128 : Int) ≤ 127) ∧
    ((-129 : Int) < -128 ∨ (127 : Int) < -129) ∧ 255 < 256 ∧ (Instr.add (-128) 127).WellFormed ∧
    (Instr.read 255).WellFormed := by decide

/-- DecodeIsTheOpcodeMap: HALT's word, and a word of each opcode that is not HALT. -/
theorem witness_opcode_map :
    (0xFFFFFF#24).toInt = -1 ∧ (0x07FFFF#24).toInt ≠ -1 ∧ (0x07FFFF#24).extractLsb' 16 3 = 7#3 ∧
    (0x018080#24).extractLsb' 16 3 = 1#3 ∧ (0x02FF00#24).extractLsb' 16 3 = 2#3 ∧
    (0x03FE00#24).extractLsb' 16 3 = 3#3 ∧ (0x049C00#24).extractLsb' 16 3 = 4#3 ∧
    (0x05C800#24).extractLsb' 16 3 = 5#3 ∧ (0x06FF00#24).extractLsb' 16 3 = 6#3 ∧
    (0xF80000#24).extractLsb' 16 3 = 0#3 := by decide

/-- DecoderIgnoresUnusedBits: two different words of one instruction; NopOnlyAdvances: a NOP that is not 0. -/
theorem witness_ignored_bits :
    (0x0712FF#24 : Cell) ≠ haltWord ∧ (0xFF1200#24 : Cell) ≠ haltWord ∧ opcodeField 0x0712FF#24 = opcodeField 0xFF1200#24 ∧
    op1Field 0x0712FF#24 = op1Field 0xFF1200#24 ∧ opcodeField 0x0712FF#24 ≠ 1 ∧ opcodeField 0xF812FF#24 = 0 := by decide

/-- DecodedInstructionsAreWellFormed; AssembledWordLayout; LineAssemblesIffOperandsInRange, both ways. -/
theorem witness_encoding :
    decode 0x018080#24 = some (.add (-128) (-128)) ∧ 255 ≤ 255 ∧ (Instr.nop ≠ Instr.halt) ∧
    assembleOperands .read [255] = some 0x05FF00#24 ∧ assembleOperands .read [256] = none ∧
    assembleOperands .inc [-129] = none := by decide

/-- FirstUnmatchedLineIsReported: a comment line and a NOP before `MOV 1`. -/
theorem witness_unmatched_line :
    isBlank (stripComment ['#']) = true ∧ parseLine (stripComment ['N', 'O', 'P']) = some (.nop, []) ∧
    assembleOperands .nop [] = some 0#24 ∧ isBlank (stripComment ['M', 'O', 'V', ' ', '1']) = false ∧
    parseLine (stripComment ['M', 'O', 'V', ' ', '1']) = none := by decide

/-- LineMatchesExactlyItsSpellings: `ADD -05 127` is spelled, with a sign and a leading zero, and parses. -/
theorem witness_spelling :
    Spells ['A', 'D', 'D', ' ', '-', '0', '5', ' ', '1', '2', '7'] .add [-5, 127] ∧
    parseLine ['A', 'D', 'D', ' ', '-', '0', '5', ' ', '1', '2', '7'] = some (.add, [-5, 127]) :=
  ⟨⟨rfl, [['-', '0', '5'], ['1', '2', '7']],
      .cons ⟨true, [0, 5], by decide, by decide, by decide, by decide⟩
        (.cons ⟨false, [1, 2, 7], by decide, by decide, by decide, by decide⟩ .nil), by decide⟩, by decide⟩

/-- ProgramAssemblesToItsWordsInOrder: a comment line, then ` READ 255` with a comment, an address at its range's end. -/
theorem witness_source :
    '\n' ∉ ['#', 'a'] ∧ isBlank (stripComment ['#', 'a']) = true ∧
    '\n' ∉ [' ', 'R', 'E', 'A', 'D', ' ', '2', '5', '5', '\t', '#', 'x'] ∧ (Instr.read 255).WellFormed ∧
    SourceLine [' ', 'R', 'E', 'A', 'D', ' ', '2', '5', '5', '\t', '#', 'x'] (.read 255) :=
  ⟨by decide, by decide, by decide, by decide,
    [' '], ['R', 'E', 'A', 'D', ' ', '2', '5', '5'], ['\t'], ['#', 'x'], by decide,
    ⟨rfl, [['2', '5', '5']], .cons ⟨false, [2, 5, 5], by decide, by decide, by decide, by decide⟩ .nil, by decide⟩,
    by simp [isSpace], by simp [isSpace], .inr ⟨['x'], rfl⟩⟩

/-- BlankProgramIsAllZeroCells, ConstructionLeavesResetValues: a blank text and the smallest parameters. -/
theorem witness_blank_text :
    (∀ l ∈ splitOnChar '\n' [' ', '\n', '#', 'A'], isBlank (stripComment l) = true) ∧ (0 : Int) < 1 := by decide

/-- ConstructionRejectsNonPositive, ConstructedMachineMeetsInvariant: each side. -/
theorem witness_construct :
    construct [] 0 1 = .rejected .excessNotPositive ∧ construct [] 1 0 = .rejected .budgetNotPositive ∧
    ∃ s, construct [0x016432#24] 1 1 = .machine s := ⟨by decide, by decide, _, rfl⟩

/-- StepRunsDecodedInstruction, StepKeepsInvariant, StepNeverStopsInARun, StepKeepsTheParameters, HighCellsNeverChange,
StepCountsCompletedInstructions (completed), EveryRunEnds: a live state of a run, its instruction and its next state. -/
theorem witness_live_step :
    live written = true ∧ PcOnCell written ∧ decode (memRead written.mem written.pc.toInt.toNat) = some (.inc (-1)) ∧
    (∃ t, step written = .next t ∧ t.fault = none) ∧ 256 ≤ 256 ∧ written.cfg.budget ≤ 100000 :=
  ⟨by decide, by decide, by decide, ⟨_, rfl, rfl⟩, by decide, Nat.le_refl _⟩

/-- StepCountsCompletedInstructions (failing), FailingStepCommitsOnlyTheRecord: a live step that fails. -/
theorem witness_failing_step :
    (box [] 3 0 2).cfg.faultCommit = .precise ∧ live (box [] 3 0 2) = true ∧
    ∃ t, step (box [] 3 0 2) = .next t ∧ t.fault ≠ none := ⟨by decide, by decide, _, rfl, by decide⟩

/-- EndedRunKeepsItsState, RunEndsInOneOfThreeWays, ResultIsTheFinalSnapshot: an ended run of each kind. -/
theorem witness_ended :
    live failed = false ∧ failed.fault.isSome = true ∧ live halted = false ∧ halted.running = false ∧
    live spent = false ∧ spent.cfg.budget ≤ spent.icount ∧
    ({ halted with icount := 100000 } : State).icount = halted.cfg.budget := by decide

/-- EffectFirstKeepsTheEffect: the last cell, FAULT_COMMIT = effect_first, a live failing step, an address in bounds. -/
theorem witness_effect_first :
    let s : State := { box [] 3 0 2 with cfg := { Config.default with excess := 3, faultCommit := .effectFirst } }
    s.cfg.faultCommit = .effectFirst ∧ live s = true ∧ PcOnCell s ∧ ¬ TargetInReach s 1 ∧ 2 < s.cfg.memLen ∧
      ∃ t, step s = .next t ∧ t.fault ≠ none :=
  ⟨by decide, by decide, by decide, by decide, by decide, _, rfl, by decide⟩

/-- TargetOutOfReachFails, and the failing clauses of the NOP, JUMP and ZJUMP statements: past the last cell, below cell
0, past cell 255; a WRITE whose address is in bounds. -/
theorem witness_target_out_of_reach :
    PcOnCell (box [] 3 0 2) ∧ ¬ TargetInReach (box [] 3 0 2) 1 ∧ offsetOf (.write 0) (box [] 3 0 2) = 1 ∧
    (Instr.write 0).WellFormed ∧ addressOf (.write 0) = some 0 ∧ 0 < (box [] 3 0 2).cfg.memLen ∧
    PcOnCell (box [] 3 0 0) ∧ ¬ TargetInReach (box [] 3 0 0) (-1) ∧ (Instr.jump (-1)).WellFormed ∧
    (Instr.zjump (-1)).WellFormed ∧ (box [] 3 0 0).acc.toInt = 0 ∧ offsetOf (.zjump (-1)) (box [] 3 0 0) = -1 ∧
    PcOnCell (box [] 301 0 255) ∧ ¬ TargetInReach (box [] 301 0 255) 1 ∧
    PcOnCell (box [] 3 5 2) ∧ (box [] 3 5 2).acc.toInt ≠ 0 ∧ ¬ TargetInReach (box [] 3 5 2) 1 := by decide

/-- AddressOutOfBoundsComesFirst and the address clauses of the READ and WRITE statements: the first address past memory,
at a program counter whose advance would fail too, and at one whose advance would succeed. -/
theorem witness_address_out_of_bounds :
    addressOf (.read 3) = some 3 ∧ addressOf (.write 3) = some 3 ∧ (box [] 3 0 2).cfg.memLen ≤ 3 ∧
    ¬ TargetInReach (box [] 3 0 2) 1 ∧ (box [] 3 0 1).cfg.memLen ≤ 3 ∧ TargetInReach (box [] 3 0 1) 1 := by decide

/-- IllegalWordIsNeverRaised: its premises hold only of a state no run reaches, which already held the record. -/
theorem witness_illegal_word :
    let s : State := { box [] 3 0 0 with fault := some ⟨.illegalWord 0, 0⟩ }
    ∃ t r, step s = .next t ∧ t.fault = some r ∧ r.cause = .illegalWord 0 := ⟨_, _, rfl, rfl, rfl⟩

/-- AdvancePcSucceedsExactlyInReach: a target in memory, one below it, one past it; the ends of the offset's range. -/
theorem witness_advance :
    (0 ≤ (truncate9 ((box [] 3 0 2).pc.toInt + -2)).toInt ∧
      (truncate9 ((box [] 3 0 2).pc.toInt + -2)).toInt < (box [] 3 0 2).cfg.memLen) ∧
    (truncate9 ((box [] 3 0 2).pc.toInt + -3)).toInt < 0 ∧
    ((box [] 3 0 2).cfg.memLen : Int) ≤ (truncate9 ((box [] 3 0 2).pc.toInt + 1)).toInt ∧
    PcOnCell (box [] 3 0 2) ∧ TargetInReach (box [] 3 0 2) (-2) ∧ (-128 : Int) ≤ -128 ∧ (127 : Int) ≤ 127 := by decide

/-- HaltStopsTheRun: a live state that stands on HALT, in the last cell and at the budget's last instruction. -/
theorem witness_halt :
    let s : State := { box [0#24, 0xFFFFFF#24] 0 0 1 with icount := 99999 }
    live s = true ∧ PcOnCell s ∧ memRead s.mem s.pc.toInt.toNat = haltWord := by decide

/-- The completion clauses of ADD, SHIFT, INC, NOP, JUMP, READ and WRITE: the last advance that succeeds, at the end of
memory and at cell 254, with operands at the ends of their ranges. -/
theorem witness_completion :
    TargetInReach (box [] 3 0 1) 1 ∧ TargetInReach (box [] 301 0 254) 1 ∧ (Instr.add (-128) (-128)).WellFormed ∧
    (Instr.inc (-128)).WellFormed ∧ (Instr.jump 127).WellFormed ∧ TargetInReach (box [] 128 0 0) 127 ∧
    2 < (box [] 3 0 1).cfg.memLen := by decide

/-- ShiftIsExactAndLogical: a count for each clause, on accumulators of each sign, with SHIFT_W = 9. -/
theorem witness_shift :
    (Instr.shift 0).WellFormed ∧ (Instr.shift 1).WellFormed ∧ (Instr.shift 9).WellFormed ∧ (Instr.shift (-8)).WellFormed ∧
    (Instr.shift (-9)).WellFormed ∧ (box [] 3 (-256) 1).cfg.shiftW = 9 ∧ TargetInReach (box [] 3 (-256) 1) 1 ∧
    0 ≤ (box [] 3 255 1).acc.toInt ∧ (box [] 3 0 1).acc = 0 := by decide

/-- ZjumpTestsTheStoredAccumulator, JumpIsRelativeToItself: taken, not taken, and the two self-loops. -/
theorem witness_jumps :
    (box [] 3 0 0).acc.toInt = 0 ∧ TargetInReach (box [] 3 0 0) 2 ∧ (box [] 3 (-256) 0).acc.toInt ≠ 0 ∧
    TargetInReach (box [] 3 (-256) 0) 1 ∧ live (box [0x030000#24] 1 0 0) = true ∧ PcOnCell (box [0x030000#24] 1 0 0) ∧
    decode (memRead (box [0x030000#24] 1 0 0).mem 0) = some (.jump 0) ∧ live (box [0x040000#24] 1 0 0) = true ∧
    decode (memRead (box [0x040000#24] 1 0 0).mem 0) = some (.zjump 0) := by decide

/-- The frames: an execution of each instruction that completes, and a store that fails. -/
theorem witness_frames :
    let s := box [] 3 5 1
    (∃ t, exec .halt s = .next t) ∧ (∃ t, exec .nop s = .next t) ∧ (∃ t, exec (.jump (-1)) s = .next t) ∧
    (∃ t, exec (.zjump 1) s = .next t) ∧ (∃ t, exec (.add 1 2) s = .next t) ∧ (∃ t, exec (.shift 1) s = .next t) ∧
    (∃ t, exec (.inc 1) s = .next t) ∧ (∃ t, exec (.read 2) s = .next t) ∧ (∃ t, exec (.write 2) s = .next t) ∧
    (∃ t, exec (.write 3) s = .next t) ∧ 1 ≠ 2 :=
  ⟨⟨_, rfl⟩, ⟨_, rfl⟩, ⟨_, rfl⟩, ⟨_, rfl⟩, ⟨_, rfl⟩, ⟨_, rfl⟩, ⟨_, rfl⟩, ⟨_, rfl⟩, ⟨_, rfl⟩, ⟨_, rfl⟩, by decide⟩

/-- ReadAfterWriteReturnsTheValue and StoreIntoTheNextCellIsExecuted: two cells ahead are in reach, the next cell is
stored to, and the run goes on after the store. -/
theorem witness_store_then_use :
    TargetInReach (box [] 4 (-1) 1) 1 ∧ TargetInReach (box [] 4 (-1) 1) 2 ∧ 2 < (box [] 4 (-1) 1).cfg.memLen ∧
    ((2 : Nat) : Int) = (box [] 4 (-1) 1).pc.toInt + 1 ∧
    (nextOf (exec (.write 2) (box [] 4 (-1) 1))).map live = some true := by decide

/-- OnlyCompletedWritesAreLogged: a live WRITE that completes, with FAULT_COMMIT = precise. -/
theorem witness_logged_write :
    let s := box [0x060200#24] 3 5 0
    s.cfg.faultCommit = .precise ∧ live s = true ∧ PcOnCell s ∧
      decode (memRead s.mem s.pc.toInt.toNat) = some (.write 2) ∧ ∃ t, step s = .next t ∧ t.fault = none :=
  ⟨by decide, by decide, by decide, by decide, _, rfl, rfl⟩

/-- HighCellsHaveNoInfluence: two memories that differ at cell 256 only. -/
theorem witness_high_cells :
    let s := box [] 301 5 0
    (∀ a, a < 256 → memRead [(256, 1#24)] a = memRead s.mem a) ∧ memRead [(256, 1#24)] 256 ≠ memRead s.mem 256 ∧
      ∃ t, step s = .next t :=
  ⟨fun a h => by simp [memRead, tableGet, Nat.ne_of_lt h, box, layoutFrom], by decide, _, rfl⟩

end Sys2Proof.Tests
end

section
/-! PROOFS. The narrowing and widening functions and the bit fields (spec 00_scope.md R3 to R5). -/

namespace Sys2Proof.Machine

/-- R3's masking to nine bits and sign extension of bit 8, as integer arithmetic. -/
theorem truncate9_toInt_eq_emod (v : Int) :
    (truncate9 v).toInt = if 256 ≤ v % 512 then v % 512 - 512 else v % 512 := by
  rw [truncate9_toInt, Int.bmod_def]
  by_cases hsign : 256 ≤ v % 512
  · rw [if_neg (by omega), if_pos hsign]; rfl
  · rw [if_pos (by omega), if_neg hsign]; rfl

/-- In the signed byte range `truncate8` answers the byte the encoder packs (R4, R55). -/
theorem truncate8_eq_signedField {v : Int} (lo : -128 ≤ v) (hi : v ≤ 127) : truncate8 v = some (signedField v) :=
  if_pos ⟨lo, hi⟩

/-- R4's RangeError. -/
theorem truncate8_eq_none {v : Int} (h : v < -128 ∨ 127 < v) : truncate8 v = none :=
  if_neg (by omega)

/-- The packed byte as an integer. -/
theorem signedField_cast (v : Int) : (signedField v : Int) = v % 256 :=
  Int.toNat_of_nonneg (Int.emod_nonneg v (by decide))

/-- Widening undoes the packing of a signed byte (R5). -/
theorem signExtend8_signedField {v : Int} (lo : -128 ≤ v) (hi : v ≤ 127) : signExtend8 (signedField v) = v :=
  signedOperand_signedField (by simp [inSignedByte, lo, hi])

/-- Bit `k` of a field is bit `offset + k` of the value (R5). -/
theorem extractBits_testBit (value width offset k : Nat) :
    (extractBits value width offset).testBit k = (decide (k < width) && value.testBit (offset + k)) := by
  rw [extractBits, Nat.testBit_mod_two_pow, Nat.testBit_div_two_pow, Nat.add_comm k]

/-- Settles O1: the closed form is the balanced remainder modulo 512 with its two branches told apart; the range is
that of every nine-bit word. -/
theorem truncate9IsLowNineBitsSigned : Obligations.Truncate9IsLowNineBitsSigned := by
  refine ⟨fun v => ?_, by decide, by decide, by decide, by decide, by decide⟩
  obtain ⟨lo, hi⟩ := word9_range (truncate9 v)
  exact ⟨truncate9_toInt_eq_emod v, lo, Int.le_of_lt_add_one hi,
    fun h h' => truncate9_toInt_of_range h (Int.lt_add_one_of_le h')⟩

/-- Settles O2: on the legal range the byte is the encoder's `signedField`, which `signExtend8` undoes; the sign
extension and the quotient form of a field are the model's own definitions. -/
theorem byteNarrowingAndFields : Obligations.ByteNarrowingAndFields :=
  ⟨fun v lo hi => ⟨signedField v, truncate8_eq_signedField lo hi, signedField_cast v, signExtend8_signedField lo hi⟩,
    fun _ h => truncate8_eq_none h,
    fun _ _ => rfl,
    fun value width offset => ⟨rfl, extractBits_testBit value width offset⟩⟩

end Sys2Proof.Machine
end

section
/-! PROOFS. The memory and the registers right after construction (spec 10_state.md R19). -/

namespace Sys2Proof.Machine

theorem memRead_cons (k : Nat) (v : Cell) (m : Memory) (a : Nat) :
    memRead ((k, v) :: m) a = if a = k then v else memRead m a :=
  apply_ite (Option.getD · 0) (a = k) (some v) (tableGet m a)

/-- Below its first cell a layout lists nothing. -/
theorem memRead_layoutFrom_of_lt {i a : Nat} (h : a < i) (ws : List Cell) : memRead (layoutFrom i ws) a = 0 := by
  have hnone : tableGet (layoutFrom i ws) a = none :=
    tableGet_eq_none fun p hp => Nat.ne_of_gt (Nat.lt_of_lt_of_le h (mem_layoutFrom hp).1)
  rw [memRead, hnone, Option.getD_none]

/-- Whether or not the first word is listed, the layout reads as it in its first cell, and elsewhere as the rest. -/
theorem memRead_layoutFrom_cons (i : Nat) (w : Cell) (ws : List Cell) (a : Nat) :
    memRead (layoutFrom i (w :: ws)) a = if a = i then w else memRead (layoutFrom (i + 1) ws) a := by
  rw [layoutFrom]
  by_cases hw : w = 0
  · rw [if_pos hw]
    by_cases ha : a = i
    · rw [if_pos ha, hw, memRead_layoutFrom_of_lt (by omega)]
    · rw [if_neg ha]
  · rw [if_neg hw, memRead_cons]

/-- A layout reads as its `k`-th word `k` cells after its first cell, and as 0 past the last word. -/
theorem memRead_layoutFrom (i : Nat) (ws : List Cell) (k : Nat) :
    memRead (layoutFrom i ws) (i + k) = ws[k]?.getD 0 := by
  induction ws generalizing i k with
  | nil => rfl
  | cons w ws ih =>
    rw [memRead_layoutFrom_cons]
    cases k with
    | zero => simp
    | succ k => rw [if_neg (by omega), List.getElem?_cons_succ, ← ih (i + 1) k, Nat.add_right_comm, Nat.add_assoc]

/-- The memory of a construction, cell by cell (R19, R32). -/
theorem memRead_program (words : List Cell) (k : Nat) : memRead (layoutFrom 0 words) k = words[k]?.getD 0 := by
  rw [← memRead_layoutFrom 0 words k, Nat.zero_add]

/-- With positive parameters construction answers a machine (R180). -/
theorem construct_of_pos {excess budget : Int} (he : 0 < excess) (hb : 0 < budget) (words : List Cell) :
    construct words excess budget = .machine
      { State.reset with
        cfg := { Config.default with progLen := words.length, excess := excess.toNat, budget := budget.toNat }
        mem := layoutFrom 0 words } := by
  rw [construct, if_neg (Int.not_le.2 he), if_neg (Int.not_le.2 hb)]

/-- Settles O12: the registers are those of the reset state, and the memory is the layout of the words. -/
theorem constructionLeavesResetValues : Obligations.ConstructionLeavesResetValues := by
  intro words excess budget he hb
  refine ⟨_, construct_of_pos he hb words, rfl, rfl, rfl, rfl, rfl, rfl, ?memLen, ?budget, ?program, ?zero⟩
  case memLen => simp only [Config.memLen]; omega
  case budget => exact Int.toNat_of_nonneg hb.le
  case program => intro k hk; rw [memRead_program, List.getElem?_eq_getElem hk, Option.getD_some]
  case zero => intro k hk; rw [memRead_program, List.getElem?_eq_none hk, Option.getD_none]

end Sys2Proof.Machine
end

section
/-! PROOFS. The decoder in fields of bits, and decoding the encoder's words (spec 30_encoding.md R57, R61). -/

namespace Sys2Proof

open Sys2Proof.Machine

/-- R52: HALT's word is the one that reads as -1. -/
theorem toInt_eq_neg_one_iff {w : Cell} : w.toInt = -1 ↔ w = haltWord :=
  BitVec.toInt_inj (y := haltWord)

theorem opcodeField_eq_toNat (w : Cell) : opcodeField w = (w.extractLsb' 16 3).toNat := by
  rw [opcodeField, extractBits, BitVec.extractLsb'_toNat, Nat.shiftRight_eq_div_pow]

theorem op1Field_eq_toNat (w : Cell) : op1Field w = (w.extractLsb' 8 8).toNat := by
  rw [op1Field, extractBits, BitVec.extractLsb'_toNat, Nat.shiftRight_eq_div_pow]

theorem op2Field_eq_toNat (w : Cell) : op2Field w = (w.extractLsb' 0 8).toNat := by
  rw [op2Field, extractBits, BitVec.extractLsb'_toNat, Nat.shiftRight_eq_div_pow]

/-- Sign extension of a byte is its two's-complement reading (R5, R53). -/
theorem signedOperand_toNat (b : Byte) : signedOperand b.toNat = b.toInt := by
  rw [signedOperand, signExtend8, BitVec.toInt_eq_toNat_cond]
  by_cases hsign : 128 ≤ b.toNat
  · rw [if_pos hsign, if_neg (by omega)]; rfl
  · rw [if_neg hsign, if_pos (by omega)]

theorem signedOperand_op1Field (w : Cell) : signedOperand (op1Field w) = (w.extractLsb' 8 8).toInt := by
  rw [op1Field_eq_toNat, signedOperand_toNat]

theorem signedOperand_op2Field (w : Cell) : signedOperand (op2Field w) = (w.extractLsb' 0 8).toInt := by
  rw [op2Field_eq_toNat, signedOperand_toNat]

theorem addressOperand_op1Field (w : Cell) : addressOperand (op1Field w) = (w.extractLsb' 8 8).toNat :=
  op1Field_eq_toNat w

theorem decode_of_kindOfWord {w : Cell} {k : Kind} (h : kindOfWord w = some k) : decode w = some (k.instrOfWord w) := by
  rw [decode, h, Option.map_some]

theorem decode_haltWord : decode haltWord = some .halt :=
  decode_of_kindOfWord kindOfWord_haltWord

/-- Any word but HALT's is an instruction of the kind its opcode field selects (R56, R57). -/
theorem decode_of_ne_haltWord {w : Cell} (hw : w ≠ haltWord) :
    decode w = some ((kindOfOpcode (opcodeField w)).instrOfWord w) :=
  decode_of_kindOfWord (kindOfWord_of_opcode hw)

/-- One row of the opcode table (R55), read by the decoder. -/
theorem decode_of_opcode {w : Cell} {c : BitVec 3} (hw : w ≠ haltWord) (hc : w.extractLsb' 16 3 = c) :
    decode w = some ((kindOfOpcode c.toNat).instrOfWord w) := by
  rw [decode_of_ne_haltWord hw, opcodeField_eq_toNat, hc]

/-- The decoder refuses no word (R57). -/
theorem decode_ne_none (w : Cell) : decode w ≠ none := by
  by_cases hw : w = haltWord
  · rw [hw, decode_haltWord]; exact Option.some_ne_none _
  · rw [decode_of_ne_haltWord hw]; exact Option.some_ne_none _

/-- Settles O4: a word other than HALT's decodes by the row of its opcode; each row's operands are its bytes. -/
theorem decodeIsTheOpcodeMap : Obligations.DecodeIsTheOpcodeMap := by
  intro w
  refine ⟨fun h => toInt_eq_neg_one_iff.1 h ▸ decode_haltWord, fun h => ?rows, decode_ne_none w⟩
  have hw : w ≠ haltWord := mt toInt_eq_neg_one_iff.2 h
  rw [← signedOperand_op1Field, ← signedOperand_op2Field, ← addressOperand_op1Field]
  exact ⟨decode_of_opcode hw, decode_of_opcode hw, decode_of_opcode hw, decode_of_opcode hw,
    decode_of_opcode hw, decode_of_opcode hw, decode_of_opcode hw, decode_of_opcode hw⟩

theorem inSignedByte_iff {v : Int} : inSignedByte v = true ↔ -128 ≤ v ∧ v ≤ 127 := by
  rw [inSignedByte, Bool.and_eq_true, decide_eq_true_eq, decide_eq_true_eq]

theorem add_wellFormed_iff {a b : Int} :
    (Instr.add a b).WellFormed ↔ inSignedByte a = true ∧ inSignedByte b = true := by
  rw [Instr.WellFormed, Instr.wf, Bool.and_eq_true]

/-- The kind of the assembled word is the instruction's (R56). -/
theorem kindOfWord_encode {i : Instr} (h : i.WellFormed) : kindOfWord (encode i) = some i.kind := by
  cases i with
  | halt => exact Laws.EncodedKind.halt h
  | add a b => exact Laws.EncodedKind.add a b h
  | shift n => exact Laws.EncodedKind.shift n h
  | jump n => exact Laws.EncodedKind.jump n h
  | zjump n => exact Laws.EncodedKind.zjump n h
  | read addr => exact Laws.EncodedKind.read addr h
  | write addr => exact Laws.EncodedKind.write addr h
  | inc n => exact Laws.EncodedKind.inc n h
  | nop => exact Laws.EncodedKind.nop h

/-- The first operand byte of a packed word reads back as the signed operand packed there. -/
theorem signedOperand_op1Field_packWord {c y : Nat} {v : Int} (hc : c < 8) (hy : y < 256) (hv : inSignedByte v = true) :
    signedOperand (op1Field (packWord c (signedField v) y)) = v := by
  rw [op1Field_packWord hc (signedField_lt v) hy, signedOperand_signedField hv]

theorem signedOperand_op2Field_packWord {c x : Nat} {v : Int} (hc : c < 8) (hx : x < 256) (hv : inSignedByte v = true) :
    signedOperand (op2Field (packWord c x (signedField v))) = v := by
  rw [op2Field_packWord hc hx (signedField_lt v), signedOperand_signedField hv]

theorem addressOperand_op1Field_packWord {c y a : Nat} (hc : c < 8) (hy : y < 256) (ha : inAddressByte a = true) :
    addressOperand (op1Field (packWord c (addressField a) y)) = a := by
  rw [op1Field_packWord hc (addressField_lt a) hy, addressOperand_addressField ha]

/-- The operands survive the packing, whatever the kind (R61). -/
theorem instrOfWord_encode {i : Instr} (h : i.WellFormed) : i.kind.instrOfWord (encode i) = i := by
  cases i with
  | halt => rfl
  | add a b =>
    obtain ⟨ha, hb⟩ := add_wellFormed_iff.1 h
    exact congrArg₂ Instr.add (signedOperand_op1Field_packWord (by decide) (signedField_lt b) ha)
      (signedOperand_op2Field_packWord (by decide) (signedField_lt a) hb)
  | shift n => exact congrArg Instr.shift (signedOperand_op1Field_packWord (by decide) (by decide) h)
  | jump n => exact congrArg Instr.jump (signedOperand_op1Field_packWord (by decide) (by decide) h)
  | zjump n => exact congrArg Instr.zjump (signedOperand_op1Field_packWord (by decide) (by decide) h)
  | read addr => exact congrArg Instr.read (addressOperand_op1Field_packWord (by decide) (by decide) h)
  | write addr => exact congrArg Instr.write (addressOperand_op1Field_packWord (by decide) (by decide) h)
  | inc n => exact congrArg Instr.inc (signedOperand_op1Field_packWord (by decide) (by decide) h)
  | nop => rfl

/-- R61 for the encoder: the scan finds the kind, and the kind reads the operands back. -/
theorem decode_encode {i : Instr} (h : i.WellFormed) : decode (encode i) = some i := by
  rw [decode_of_kindOfWord (kindOfWord_encode h), instrOfWord_encode h]

end Sys2Proof
end

section
/-! PROOFS. The words the assembler packs, and the text that has none (spec 30_encoding.md R61, R66, R69). -/

namespace Sys2Proof.Machine

theorem truncate8_of_inSignedByte {v : Int} (h : inSignedByte v = true) : truncate8 v = some (signedField v) :=
  have ⟨lo, hi⟩ := inSignedByte_iff.1 h
  truncate8_eq_signedField lo hi

/-- In the address range the assembler's byte is the one the encoder packs (R55, R66). -/
theorem addressByte_of_inAddressByte {a : Nat} (h : inAddressByte a = true) :
    addressByte a = some (addressField a) := by
  have ha : a ≤ 255 := of_decide_eq_true h
  rw [addressByte, if_pos (by omega), addressField, Nat.mod_eq_of_lt (by omega), Int.toNat_natCast]

theorem packSigned_of_inSignedByte {v : Int} (h : inSignedByte v = true) (c : Nat) :
    packSigned c v = some (packWord c (signedField v) 0) := by
  rw [packSigned, truncate8_of_inSignedByte h, Option.map_some]

theorem packAddress_of_inAddressByte {a : Nat} (h : inAddressByte a = true) (c : Nat) :
    packAddress c a = some (packWord c (addressField a) 0) := by
  rw [packAddress, addressByte_of_inAddressByte h, Option.map_some]

/-- The assembler packs a well-formed instruction's kind and operands to its canonical word (R55, R66). -/
theorem assembleOperands_eq_encode {i : Instr} (h : i.WellFormed) :
    assembleOperands i.kind i.operands = some (encode i) := by
  cases i with
  | halt => rfl
  | add a b =>
    obtain ⟨ha, hb⟩ := add_wellFormed_iff.1 h
    simp only [Instr.kind, Instr.operands, assembleOperands, encode, truncate8_of_inSignedByte ha,
      truncate8_of_inSignedByte hb, Option.bind_some, Option.map_some]
  | shift n => exact packSigned_of_inSignedByte h 2
  | jump n => exact packSigned_of_inSignedByte h 3
  | zjump n => exact packSigned_of_inSignedByte h 4
  | read addr => exact packAddress_of_inAddressByte h 5
  | write addr => exact packAddress_of_inAddressByte h 6
  | inc n => exact packSigned_of_inSignedByte h 7
  | nop => rfl

/-- Settles O3: the assembler's word is the encoder's, which the decoder inverts; R58's `0x0000FF` is a NOP as
`0x000000` is. -/
theorem decodeOfAssembledWord : Obligations.DecodeOfAssembledWord :=
  ⟨fun _ h => ⟨assembleOperands_eq_encode h, decode_encode h⟩,
    fun _ lo hi => signExtend8_signedField lo hi,
    0x000000#24, 0x0000FF#24, by decide, by decide⟩

/-- Blank and comment lines assemble to no words (R62). -/
theorem assembleLines_of_blank {ls : List (List Char)} (h : ∀ l ∈ ls, isBlank (stripComment l) = true) (n : Nat) :
    assembleLines n ls = .words [] := by
  induction ls generalizing n with
  | nil => rfl
  | cons l ls ih =>
    obtain ⟨hl, hls⟩ := List.forall_mem_cons.1 h
    rw [assembleLines, if_pos hl, ih hls]

/-- Settles O11: the text assembles to no words, so construction lays out an empty memory, and the zero cell is NOP's
canonical word. -/
theorem blankProgramIsAllZeroCells : Obligations.BlankProgramIsAllZeroCells := by
  intro text excess budget hblank he hb
  have hwords : assemble text = .words [] := assembleLines_of_blank hblank 1
  have hzero (a : Nat) : memRead (layoutFrom 0 []) a = encode .nop := memRead_program [] a
  rw [constructText, hwords]
  refine ⟨_, construct_of_pos he hb [], rfl, ?memLen, fun a => ⟨hzero a, ?nop⟩⟩
  case memLen => simp only [Config.memLen, List.length_nil]; omega
  case nop => rw [hzero a]; exact decode_encode rfl

end Sys2Proof.Machine
end

section
/-! PROOFS. `AdvancePc`, and the results of INC, READ and WRITE (spec 40_engine.md R86, R87, R89, R90). -/

namespace Sys2Proof.Machine

theorem pcInMemory_eq_false_iff {n : Nat} {t : Word9} : pcInMemory n t = false ↔ t.toInt < 0 ∨ (n : Int) ≤ t.toInt := by
  rw [Bool.eq_false_iff, ne_eq, pcInMemory_iff]; omega

/-- In reach normalization does not change the sum (R86). -/
theorem truncate9_toInt_of_target {s : State} {off : Int} (h : TargetInReach s off) :
    (truncate9 (s.pc.toInt + off)).toInt = s.pc.toInt + off :=
  truncate9_toInt_of_range (by omega) (by omega)

theorem advancePc_of_target {s : State} {off : Int} (h : TargetInReach s off) :
    advancePc off s = .done { s with pc := truncate9 (s.pc.toInt + off) } :=
  advancePc_done (pcInMemory_of_target h)

/-- On a state of a run an encodable offset is in reach exactly when `AdvancePc` succeeds (R86). -/
theorem targetInReach_iff_advancePc_done {s : State} {off : Int} (hpc : PcOnCell s) (lo : -128 ≤ off) (hi : off ≤ 127) :
    TargetInReach s off ↔ ∃ t, advancePc off s = .done t := by
  constructor
  · exact fun h => ⟨_, advancePc_of_target h⟩
  · rintro ⟨t, hdone⟩
    by_contra h
    rw [advancePc_raised (not_pcInMemory_of_target hpc lo hi h)] at hdone
    cases hdone

theorem targetInReach_zero {s : State} (h : PcOnCell s) : TargetInReach s 0 := by
  have := word9_range s.pc
  obtain ⟨lo, hi⟩ := h
  exact ⟨by omega, by omega, by omega⟩

theorem advancePc_zero {s : State} (h : PcOnCell s) : advancePc 0 s = .done s := by
  rw [advancePc_of_target (targetInReach_zero h), Int.add_zero, truncate9_toInt_self]

/-- Settles O30: the two branches of `AdvancePc` on the normalized target; a nine-bit `pc` plus an encodable offset never
wraps back into memory. -/
theorem advancePcSucceedsExactlyInReach : Obligations.AdvancePcSucceedsExactlyInReach :=
  ⟨fun _ _ => ⟨fun h => advancePc_done (pcInMemory_iff.2 h), fun h => advancePc_raised (pcInMemory_eq_false_iff.2 h)⟩,
    fun _ _ hpc lo hi =>
      ⟨targetInReach_iff_advancePc_done hpc lo hi,
        fun h => ⟨_, advancePc_of_target h, truncate9_toInt_of_target h⟩,
        advancePc_zero hpc⟩⟩

/-- Completion of any instruction but HALT in the terms of the statements: data address and target in bounds. -/
theorem exec_of_target {i : Instr} {s : State} (hi : i ≠ .halt) (haddr : ∀ a ∈ addressOf i, a < s.cfg.memLen)
    (h : TargetInReach s (offsetOf i s)) :
    exec i s = .next { effectOf i s with pc := truncate9 (s.pc.toInt + offsetOf i s), icount := s.icount + 1 } :=
  exec_completes hi haddr (pcInMemory_of_target h)

/-- Where nothing came before the failure, both values of FAULT_COMMIT keep nothing but the record (R94, D5). -/
theorem takeFailure_self (c : FailureCause) (s : State) : takeFailure c s s = recorded s c :=
  takeFailure_cases s s c (· = recorded s c) rfl rfl

theorem exec_of_address_outside {i : Instr} {s : State} {a : Nat} (hi : addressOf i = some a) (ha : s.cfg.memLen ≤ a) :
    exec i s = .next (recorded s (.addrOutOfBounds a)) := by
  rw [exec_address_fails hi (Nat.not_lt.2 ha), takeFailure_self]

/-- R3 on a sum that leaves the nine-bit range by less than its size: one wrap by 512. -/
theorem truncate9_toInt_wrap {v : Int} (lo : -768 ≤ v) (hi : v < 768) :
    (truncate9 v).toInt = if 255 < v then v - 512 else if v < -256 then v + 512 else v := by
  rw [truncate9_toInt_eq_emod]
  by_cases habove : 255 < v
  · rw [if_pos habove]; split <;> omega
  · rw [if_neg habove]
    by_cases hbelow : v < -256
    · rw [if_pos hbelow]; split <;> omega
    · rw [if_neg hbelow]; split <;> omega

/-- Settles O35: INC completes, and the sum of a nine-bit value and a signed byte wraps at most once. -/
theorem incAddsAndWraps : Obligations.IncAddsAndWraps := by
  intro n s hwf h
  obtain ⟨lo, hi⟩ := inSignedByte_iff.1 hwf
  obtain ⟨hlo, hhi⟩ := word9_range s.acc
  exact ⟨exec_of_target (i := .inc n) nofun nofun h, truncate9_toInt_wrap (by omega) (by omega)⟩

/-- The low nine bits of a cell, as a field of the word (R89). -/
theorem truncate9_cell (w : Cell) : truncate9 w.toInt = w.extractLsb' 0 9 :=
  calc truncate9 w.toInt
    _ = w.setWidth 9 := w.signExtend_eq_setWidth_of_le (by decide)
    _ = w.extractLsb' 0 9 := BitVec.eq_of_toNat_eq rfl

theorem readCell_of_outside {addr : Nat} {s : State} (h : s.cfg.memLen ≤ addr) :
    readCell addr s = .raised (.addrOutOfBounds addr) s :=
  if_neg (Nat.not_lt.2 h)

theorem writeCell_of_outside {addr : Nat} {s : State} (h : s.cfg.memLen ≤ addr) :
    writeCell addr s = .raised (.addrOutOfBounds addr) s :=
  if_neg (Nat.not_lt.2 h)

/-- The data address of READ or WRITE is the one its bounds check tests. -/
theorem forall_addressOf_lt {i : Instr} {addr n : Nat} (hi : addressOf i = some addr) (h : addr < n) :
    ∀ a ∈ addressOf i, a < n := by
  rw [hi]; rintro _ ⟨⟩; exact h

/-- Settles O38: READ completes with the cell's low nine bits, or its bounds check raises and only the record is kept. -/
theorem readLoadsTheCell : Obligations.ReadLoadsTheCell :=
  ⟨fun addr s ha h =>
      ⟨exec_of_target (i := .read addr) nofun (forall_addressOf_lt rfl ha) h, truncate9_cell (memRead s.mem addr)⟩,
    fun _ _ => readCell_of_outside,
    fun addr _ ha _ => exec_of_address_outside (i := .read addr) rfl ha⟩

/-- A cell holds an accumulator value without loss (R34). -/
theorem cellOfAcc_toInt (v : Word9) : (cellOfAcc v).toInt = v.toInt :=
  BitVec.toInt_signExtend_of_le (by decide)

theorem tableGet_tableSet_same {α : Type} (l : List (Nat × α)) (a : Nat) (x : α) :
    tableGet (tableSet l a x) a = some x := by
  rw [tableGet_tableSet, if_pos rfl]

theorem tableGet_tableSet_other {α : Type} {a b : Nat} (h : b ≠ a) (l : List (Nat × α)) (x : α) :
    tableGet (tableSet l a x) b = tableGet l b := by
  rw [tableGet_tableSet, if_neg h]

/-- Settles O39: WRITE completes and both tables answer the stored value at its address only, or its bounds check raises
and only the record is kept. -/
theorem writeStoresAndLogs : Obligations.WriteStoresAndLogs := by
  refine ⟨fun addr s ha h => ?completes, fun _ _ => writeCell_of_outside,
    fun addr _ ha _ => exec_of_address_outside (i := .write addr) rfl ha⟩
  case completes =>
    have hcell := memRead_memWrite_same s.mem addr (cellOfAcc s.acc)
    exact ⟨_, exec_of_target (i := .write addr) nofun (forall_addressOf_lt rfl ha) h, rfl, hcell,
      (congrArg BitVec.toInt hcell).trans (cellOfAcc_toInt s.acc),
      fun _ hne => memRead_memWrite_other hne s.mem (cellOfAcc s.acc),
      tableGet_tableSet_same s.log addr s.acc,
      fun _ hne => tableGet_tableSet_other hne s.log s.acc⟩

end Sys2Proof.Machine
end

section
/-! PROOFS. The ends of a run, told apart by the state (spec 40_engine.md R80, R82). -/

namespace Sys2Proof.Machine

theorem live_iff {s : State} : live s = true ↔ s.icount < s.cfg.budget ∧ s.running = true ∧ s.fault = none := by
  simp only [live, Bool.and_eq_true, decide_eq_true_eq, Option.isNone_iff_eq_none, and_assoc]

theorem outcomeOf_of_fault {s : State} {r : FaultRecord} (h : s.fault = some r) : outcomeOf s = some (.failed r) := by
  rw [outcomeOf, h]

theorem outcomeOf_of_halted {s : State} (hf : s.fault = none) (hr : s.running = false) : outcomeOf s = some .halted := by
  rw [outcomeOf, hf, hr]; rfl

theorem outcomeOf_of_running {s : State} (hf : s.fault = none) (hr : s.running = true) :
    outcomeOf s = if s.icount < s.cfg.budget then none else some .budgetExhausted := by
  rw [outcomeOf, hf, hr]; rfl

/-- The outcome is open exactly while the loop's condition holds (R80, R82). -/
theorem outcomeOf_eq_none_iff {s : State} : outcomeOf s = none ↔ live s = true := by
  rw [live_iff]
  cases hf : s.fault with
  | some r => simp [outcomeOf_of_fault hf]
  | none =>
    cases hr : s.running with
    | false => simp [outcomeOf_of_halted hf hr]
    | true => simp [outcomeOf_of_running hf hr]

/-- Settles O21: an ended state is told apart by its fault record, then its run flag; what is left is a used budget. -/
theorem runEndsInOneOfThreeWays : Obligations.RunEndsInOneOfThreeWays := by
  refine ⟨fun s hs hl => ?ways, fun _ => outcomeOf_eq_none_iff, fun _ hf hr _ => outcomeOf_of_halted hf hr, rfl, rfl,
    fun r => ⟨failureDetailText r.cause, rfl⟩⟩
  cases hf : s.fault with
  | some r => exact .inr (.inr ⟨r, rfl, outcomeOf_of_fault hf⟩)
  | none =>
    cases hr : s.running with
    | false => exact .inl ⟨rfl, rfl, outcomeOf_of_halted hf hr⟩
    | true =>
      have hused : ¬ s.icount < s.cfg.budget := fun hlt => Bool.eq_false_iff.1 hl (live_iff.2 ⟨hlt, hr, hf⟩)
      have hcount : s.icount = s.cfg.budget := Nat.le_antisymm hs.icountLe (Nat.not_lt.1 hused)
      exact .inr (.inl ⟨rfl, rfl, hcount, by rw [outcomeOf_of_running hf hr, if_neg hused]⟩)

end Sys2Proof.Machine
end

section
/-! PROOFS. What a live step does on a state of a run: the instruction it executes, its count, the parameters. -/

namespace Sys2Proof.Machine

theorem inSignedByte_signedOperand_op1Field (w : Cell) : inSignedByte (signedOperand (op1Field w)) = true :=
  inSignedByte_signedOperand (op1Field_lt w)

/-- The operand bytes of any word are in the ranges of R54. -/
theorem instrOfWord_wellFormed (w : Cell) (k : Kind) : (k.instrOfWord w).WellFormed := by
  cases k with
  | halt => rfl
  | add =>
    exact add_wellFormed_iff.2 ⟨inSignedByte_signedOperand_op1Field w, inSignedByte_signedOperand (op2Field_lt w)⟩
  | shift => exact inSignedByte_signedOperand_op1Field w
  | jump => exact inSignedByte_signedOperand_op1Field w
  | zjump => exact inSignedByte_signedOperand_op1Field w
  | read => exact inAddressByte_addressOperand (op1Field_lt w)
  | write => exact inAddressByte_addressOperand (op1Field_lt w)
  | inc => exact inSignedByte_signedOperand_op1Field w
  | nop => rfl

theorem decode_wellFormed {w : Cell} {i : Instr} (h : decode w = some i) : i.WellFormed := by
  obtain ⟨k, -, rfl⟩ := Option.map_eq_some_iff.1 h
  exact instrOfWord_wellFormed w k

theorem step_of_not_live {s : State} (h : live s = false) : step s = .next s := by
  rw [step, h]; rfl

theorem fetch_of_pcOnCell {s : State} (h : PcOnCell s) : fetch s = some (memRead s.mem s.pc.toInt.toNat) :=
  fetch_eq_some.2 ⟨h, rfl⟩

/-- A live step with `pc` on a cell executes the instruction of that cell's word (R81). -/
theorem step_eq_exec {s : State} {i : Instr} (hl : live s = true) (hpc : PcOnCell s)
    (hi : decode (memRead s.mem s.pc.toInt.toNat) = some i) : step s = exec i s := by
  simp only [step, hl, if_true, fetch_of_pcOnCell hpc, hi]

/-- Every live step of a run executes a well-formed instruction: no word is refused (R13, R57, R81). -/
theorem exists_step_eq_exec {s : State} (hl : live s = true) (hpc : PcOnCell s) :
    ∃ i : Instr, i.WellFormed ∧ step s = exec i s := by
  obtain ⟨i, hi⟩ := Option.ne_none_iff_exists'.1 (decode_ne_none (memRead s.mem s.pc.toInt.toNat))
  exact ⟨i, decode_wellFormed hi, step_eq_exec hl hpc hi⟩

theorem takeFailure_icount {c : FailureCause} {s at_ : State} (h : at_.icount = s.icount) :
    (takeFailure c s at_).icount = s.icount :=
  takeFailure_cases s at_ c (·.icount = s.icount) rfl h

theorem takeFailure_cfg {c : FailureCause} {s at_ : State} (h : at_.cfg = s.cfg) : (takeFailure c s at_).cfg = s.cfg :=
  takeFailure_cases s at_ c (·.cfg = s.cfg) rfl h

/-- An instruction answers a next state that is counted and keeps the fault record, or is not counted and has one (R16). -/
theorem exec_counts_or_fails (i : Instr) (s : State) :
    ∃ t, exec i s = .next t ∧
      ((t.icount = s.icount + 1 ∧ t.fault = s.fault) ∨ (t.icount = s.icount ∧ t.fault.isSome = true)) := by
  obtain ⟨-, h⟩ | ⟨-, -, -, h⟩ | ⟨a, -, -, h⟩ | ⟨-, -, -, h⟩ := exec_cases (rfl : exec i s = _)
  · exact ⟨_, h, .inl ⟨rfl, rfl⟩⟩
  · exact ⟨_, h, .inl ⟨rfl, effectOf_fault i s⟩⟩
  · exact ⟨_, h, .inr ⟨takeFailure_icount rfl, by rw [takeFailure_fault]; rfl⟩⟩
  · exact ⟨_, h, .inr ⟨takeFailure_icount (effectOf_icount i s), by rw [takeFailure_fault]; rfl⟩⟩

/-- No instruction writes a parameter (R2). -/
theorem exec_cfg {i : Instr} {s t : State} (h : exec i s = .next t) : t.cfg = s.cfg := by
  obtain ⟨-, h⟩ | ⟨-, -, -, h⟩ | ⟨a, -, -, h⟩ | ⟨-, -, -, h⟩ := exec_cases h <;> cases h
  · rfl
  · exact effectOf_cfg i s
  · exact takeFailure_cfg rfl
  · exact takeFailure_cfg (effectOf_cfg i s)

/-- No step writes a parameter (R2). -/
theorem step_cfg {s t : State} (h : step s = .next t) : t.cfg = s.cfg := by
  obtain ⟨-, h⟩ | ⟨-, -, h⟩ | ⟨w, -, -, -, h⟩ | ⟨w, i, -, -, -, h⟩ := step_cases h
  · cases h; rfl
  · cases h
  · cases h; exact takeFailure_cfg rfl
  · exact exec_cfg h

/-- R83's clause on one iteration. -/
theorem step_counts_or_fails {s : State} (hl : live s = true) (hpc : PcOnCell s) :
    ∃ t, step s = .next t ∧
      ((t.icount = s.icount + 1 ∧ t.fault = none) ∨ (t.icount = s.icount ∧ t.fault.isSome = true)) := by
  obtain ⟨i, -, hstep⟩ := exists_step_eq_exec hl hpc
  obtain ⟨-, -, hfault⟩ := live_iff.1 hl
  rw [hstep, ← hfault]
  exact exec_counts_or_fails i s

end Sys2Proof.Machine
end

section
/-! PROOFS. The invariant of a run is kept by every part of a step, and so by a step (spec 10_state.md). -/

namespace Sys2Proof.Machine

/-- The log stays a record of what the cells hold when a store and its log entry go together (R18). -/
theorem logAgrees_write {m : Memory} {l : WriteLog} (hl : Rising l) (h : ∀ p ∈ l, memRead m p.1 = cellOfAcc p.2)
    (addr : Nat) (v : Word9) :
    ∀ p ∈ tableSet l addr v, memRead (memWrite m addr (cellOfAcc v)) p.1 = cellOfAcc p.2 := by
  intro p hp
  have hget := tableGet_of_mem (rising_tableSet hl addr v) hp
  by_cases ha : p.1 = addr
  · rw [ha, tableGet_tableSet_same, Option.some.injEq] at hget
    rw [ha, memRead_memWrite_same, hget]
  · rw [tableGet_tableSet_other ha] at hget
    rw [memRead_memWrite_other ha, h _ (mem_of_tableGet hget)]

/-- A store by WRITE, with its log entry, keeps the invariant (R18, R34, R36). -/
theorem inv_write {s : State} (h : s.Inv) {addr : Nat} (hN : addr < s.cfg.memLen) (hreach : addr ≤ 255) (v : Word9) :
    State.Inv { s with mem := memWrite s.mem addr (cellOfAcc v), log := tableSet s.log addr v } :=
  { h with
    memWf := memWrite_wf h.memWf addr (cellOfAcc v)
    memInBounds := fun p hp => (mem_memWrite hp).elim (fun e => e ▸ hN) (h.memInBounds p)
    logRising := rising_tableSet h.logRising addr v
    logInReach := fun p hp => (mem_tableSet hp).elim (fun e => e ▸ ⟨hN, hreach⟩) (h.logInReach p)
    logAgrees := logAgrees_write h.logRising h.logAgrees addr v }

/-- What an instruction does before its `pc` update keeps the invariant. -/
theorem inv_effectOf {i : Instr} {s : State} (h : s.Inv) (hi : i ≠ .halt) (hwf : i.WellFormed)
    (haddr : ∀ a ∈ addressOf i, a < s.cfg.memLen) : (effectOf i s).Inv := by
  cases i with
  | halt => exact absurd rfl hi
  | write addr => exact inv_write h (haddr addr rfl) (of_decide_eq_true hwf) s.acc
  | nop => exact h
  | jump n => exact h
  | zjump n => exact h
  | add a b => exact { h with }
  | shift n => exact { h with }
  | inc n => exact { h with }
  | read addr => exact { h with }

/-- HALT keeps the invariant. -/
theorem inv_halt {s : State} (h : s.Inv) (hl : live s = true) :
    State.Inv { s with running := false, icount := s.icount + 1 } := by
  obtain ⟨hcount, -, hfault⟩ := live_iff.1 hl
  have hnone : ¬ s.fault.isSome = true := by rw [hfault]; decide
  exact { h with
    icountLe := hcount
    faultRunning := fun hsome => absurd hsome hnone
    faultCount := fun hsome => absurd hsome hnone }

/-- Counting an instruction and moving `pc` to a cell keeps the invariant. -/
theorem inv_complete {s : State} (h : s.Inv) (hl : live s = true) {p : Word9}
    (hp : pcInMemory s.cfg.memLen p = true) : State.Inv { s with pc := p, icount := s.icount + 1 } := by
  obtain ⟨hcount, -, hfault⟩ := live_iff.1 hl
  have hnone : ¬ s.fault.isSome = true := by rw [hfault]; decide
  exact { h with
    pcOnCell := pcInMemory_iff.1 hp
    icountLe := hcount
    faultPc := fun r hr => absurd (Option.isSome_of_mem hr) hnone
    faultCount := fun hsome => absurd hsome hnone }

/-- Recording a failure at `pc` keeps the invariant (R94). -/
theorem inv_recorded {s : State} (h : s.Inv) (hl : live s = true) {c : FailureCause} (hc : ∀ w, c ≠ .illegalWord w) :
    (recorded s c).Inv := by
  obtain ⟨hcount, hrun, -⟩ := live_iff.1 hl
  exact { h with
    faultPc := by rintro _ ⟨⟩; rfl
    faultRunning := fun _ => hrun
    faultCount := fun _ => hcount
    faultLegal := by rintro _ ⟨⟩; exact hc }

theorem live_effectOf {i : Instr} (hi : i ≠ .halt) (s : State) : live (effectOf i s) = live s := by
  rw [live, live, effectOf_icount, effectOf_cfg, effectOf_running hi, effectOf_fault]

/-- Taking a failure of the `pc` update keeps the invariant, with either value of FAULT_COMMIT (D5). -/
theorem inv_takeFailure_effectOf {i : Instr} {s : State} (h : s.Inv) (he : (effectOf i s).Inv) (hi : i ≠ .halt)
    (hl : live s = true) {c : FailureCause} (hc : ∀ w, c ≠ .illegalWord w) :
    (takeFailure c s (effectOf i s)).Inv := by
  refine takeFailure_cases _ _ _ State.Inv (inv_recorded h hl hc) ?_
  rw [← effectOf_pc i s]
  exact inv_recorded he ((live_effectOf hi s).trans hl) hc

/-- The invariant is kept by every well-formed instruction on a live state. -/
theorem exec_inv {i : Instr} {s t : State} (h : s.Inv) (hl : live s = true) (hwf : i.WellFormed)
    (ht : exec i s = .next t) : t.Inv := by
  obtain ⟨-, ht⟩ | ⟨hi, haddr, hpc, ht⟩ | ⟨a, -, -, ht⟩ | ⟨hi, haddr, -, ht⟩ := exec_cases ht <;> cases ht
  · exact inv_halt h hl
  · rw [← effectOf_cfg i s] at hpc
    rw [← effectOf_icount i s]
    exact inv_complete (inv_effectOf h hi hwf haddr) ((live_effectOf hi s).trans hl) hpc
  · rw [takeFailure_self]; exact inv_recorded h hl nofun
  · exact inv_takeFailure_effectOf h (inv_effectOf h hi hwf haddr) hi hl nofun

/-- The invariant of a run is kept by every step. -/
theorem step_inv {s t : State} (h : s.Inv) (ht : step s = .next t) : t.Inv := by
  cases hl : live s with
  | false => rw [step_of_not_live hl] at ht; cases ht; exact h
  | true =>
    obtain ⟨i, hwf, hstep⟩ := exists_step_eq_exec hl h.pcOnCell
    exact exec_inv h hl hwf (hstep.symm.trans ht)

end Sys2Proof.Machine
end

section
/-! PROOFS. The run loop ends (spec 40_engine.md R83). -/

namespace Sys2Proof.Machine

theorem runLoop_of_not_live {s : State} (h : live s = false) (k : Nat) : runLoop k s = .next s := by
  cases k with
  | zero => rfl
  | succ k => rw [runLoop, h]; rfl

theorem runLoop_succ_of_step {s t : State} (hl : live s = true) (ht : step s = .next t) (k : Nat) :
    runLoop (k + 1) s = runLoop k t := by
  simp only [runLoop, hl, if_true, ht]

/-- The run of `s` is over in `t` after at most `n` iterations. -/
structure EndsWithin (n : Nat) (s t : State) : Prop where
  ended : live t = false
  inv : t.Inv
  cfg : t.cfg = s.cfg
  runLoop_eq : ∀ k, n ≤ k → runLoop k s = .next t

theorem endsWithin_of_not_live {s : State} (h : s.Inv) (hl : live s = false) (n : Nat) : EndsWithin n s s :=
  ⟨hl, h, rfl, fun k _ => runLoop_of_not_live hl k⟩

theorem endsWithin_of_step {n : Nat} {s s' t : State} (hl : live s = true) (hs : step s = .next s')
    (h : EndsWithin n s' t) : EndsWithin (n + 1) s t where
  ended := h.ended
  inv := h.inv
  cfg := h.cfg.trans (step_cfg hs)
  runLoop_eq := fun k hk => by
    obtain ⟨k, rfl⟩ := Nat.exists_eq_add_of_le' hk
    rw [← Nat.add_assoc, runLoop_succ_of_step hl hs]
    exact h.runLoop_eq _ (Nat.le_add_left n k)

/-- A run ends within as many iterations as its budget has left: each one counts, or fails and is the last (R83). -/
theorem exists_endsWithin {n : Nat} {s : State} (h : s.Inv) (hn : s.cfg.budget ≤ s.icount + n) :
    ∃ t, EndsWithin n s t := by
  induction n generalizing s with
  | zero =>
    have hl : live s = false := Bool.eq_false_iff.2 fun hl => by have := (live_iff.1 hl).1; omega
    exact ⟨s, endsWithin_of_not_live h hl 0⟩
  | succ n ih =>
    cases hl : live s with
    | false => exact ⟨s, endsWithin_of_not_live h hl (n + 1)⟩
    | true =>
      obtain ⟨s', hs, hprogress⟩ := step_counts_or_fails hl h.pcOnCell
      have h' := step_inv h hs
      rcases hprogress with ⟨hcount, -⟩ | ⟨-, hfailed⟩
      · obtain ⟨t, ht⟩ := ih h' (by rw [step_cfg hs, hcount]; omega)
        exact ⟨t, endsWithin_of_step hl hs ht⟩
      · have hl' : live s' = false := Bool.eq_false_iff.2 fun hl' => by simp [(live_iff.1 hl').2.2] at hfailed
        exact ⟨s', endsWithin_of_step hl hs (endsWithin_of_not_live h' hl' n)⟩

/-- Settles O22: each iteration counts or fails, so by induction on the budget left the loop stops within BUDGET
iterations and stays where it stopped. -/
theorem everyRunEnds : Obligations.EveryRunEnds := by
  refine ⟨fun _ h hl => step_counts_or_fails hl h.pcOnCell, fun s h => ?_⟩
  obtain ⟨t, ht⟩ := exists_endsWithin h (Nat.le_add_left s.cfg.budget s.icount)
  have houtcome : outcomeOf t ≠ none := mt outcomeOf_eq_none_iff.1 (Bool.eq_false_iff.1 ht.ended)
  exact ⟨t, ht.runLoop_eq _ le_rfl, ht.ended, Option.isSome_iff_ne_none.2 houtcome, ht.inv, ht.cfg, ht.runLoop_eq⟩

end Sys2Proof.Machine
end

section
/-! PROOFS. HALT ends the run (spec 41_halt_nop.md R100). -/

namespace Sys2Proof.Machine

/-- A cleared run flag ends the loop, whatever is left of the budget (R80). -/
theorem not_live_of_halted {s : State} (h : s.running = false) : live s = false := by
  rw [live, h, Bool.and_false, Bool.false_and]

theorem step_of_haltWord {s : State} (hl : live s = true) (hpc : PcOnCell s)
    (hw : memRead s.mem s.pc.toInt.toNat = haltWord) :
    step s = .next { s with running := false, icount := s.icount + 1 } := by
  rw [step_eq_exec hl hpc (hw ▸ decode_haltWord), exec_halt]

/-- The accumulator value that WRITE stores as a HALT word (R41). -/
theorem cellOfAcc_neg_one : cellOfAcc (-1) = haltWord := by decide

/-- A READ of a HALT word loads -1 (R140): the value stored as that word reads back. -/
theorem truncate9_haltWord : truncate9 haltWord.toInt = -1 := by
  rw [← cellOfAcc_neg_one, truncate9_cellOfAcc]

/-- Settles O31: a live step on the HALT word is HALT's, which clears the run flag; a live state holds no failure, so the
outcome is halted. The budget plays no part. -/
theorem haltStopsTheRun : Obligations.HaltStopsTheRun := by
  refine ⟨rfl, decode_haltWord, exec_halt, fun s hl hpc hw => ?ends, cellOfAcc_neg_one, truncate9_haltWord⟩
  obtain ⟨-, -, hfault⟩ := live_iff.1 hl
  exact ⟨_, step_of_haltWord hl hpc hw, not_live_of_halted rfl, outcomeOf_of_halted hfault rfl, rfl, rfl⟩

end Sys2Proof.Machine
end

section
/-! PROOFS. The words of JUMP and ZJUMP (spec 30_encoding.md R51, R55, R57). -/

namespace Sys2Proof

open Sys2Proof.Machine

/-- The word of an instruction with one signed operand, as a sum (R51, R55). -/
theorem packWord_signedField_toNat {c : Nat} (hc : c < 8) (n : Int) :
    (packWord c (signedField n) 0).toNat = c * 65536 + (n % 256).toNat * 256 := by
  rw [packWord_toNat hc (signedField_lt n) (by decide), Nat.add_zero, signedField]

/-- HALT's word has INC's opcode, so every other opcode rules it out (R56). -/
theorem ne_haltWord_of_opcode {w : Cell} {c : BitVec 3} (h : w.extractLsb' 16 3 = c) (hc : c ≠ 7#3) : w ≠ haltWord := by
  rintro rfl
  exact hc h.symm

theorem decode_of_opcode_jump {w : Cell} (h : w.extractLsb' 16 3 = 3#3) :
    decode w = some (.jump (w.extractLsb' 8 8).toInt) := by
  rw [← signedOperand_op1Field]
  exact decode_of_opcode (ne_haltWord_of_opcode h (by decide)) h

theorem decode_of_opcode_zjump {w : Cell} (h : w.extractLsb' 16 3 = 4#3) :
    decode w = some (.zjump (w.extractLsb' 8 8).toInt) := by
  rw [← signedOperand_op1Field]
  exact decode_of_opcode (ne_haltWord_of_opcode h (by decide)) h

end Sys2Proof
end

section
/-! PROOFS. An instruction that leads back to itself uses up the budget (spec 40_engine.md R80, R81). -/

namespace Sys2Proof.Machine

/-- While the loop's condition holds, only the budget bounds the count at which it would (R80). -/
theorem live_with_icount {s : State} (hl : live s = true) {k : Nat} (hk : k < s.cfg.budget) :
    live { s with icount := k } = true := by
  obtain ⟨-, hrun, hfault⟩ := live_iff.1 hl
  exact live_iff.2 ⟨hk, hrun, hfault⟩

/-- Iterations that do nothing but count go on until the budget is used. -/
theorem runLoop_of_counting_steps {s : State} (hl : live s = true)
    (hstep : ∀ k < s.cfg.budget, step { s with icount := k } = .next { s with icount := k + 1 })
    {n k : Nat} (hk : k ≤ s.cfg.budget) (hn : s.cfg.budget ≤ k + n) :
    runLoop n { s with icount := k } = .next { s with icount := s.cfg.budget } := by
  induction n generalizing k with
  | zero => rw [Nat.le_antisymm hk hn, runLoop]
  | succ n ih =>
    obtain hlt | rfl := hk.lt_or_eq
    · rw [runLoop_succ_of_step (live_with_icount hl hlt) (hstep k hlt)]
      exact ih hlt (by omega)
    · exact runLoop_of_not_live (Bool.eq_false_iff.2 fun hused => (live_iff.1 hused).1.false) _

/-- A live run whose instruction at `pc` only counts, whatever the count, ends with the budget used and nothing else
changed. -/
theorem run_of_self_loop {s : State} {i : Instr} (hl : live s = true) (hpc : PcOnCell s)
    (hi : decode (memRead s.mem s.pc.toInt.toNat) = some i)
    (hexec : ∀ k, exec i { s with icount := k } = .next { s with icount := k + 1 }) :
    run s = .next { s with icount := s.cfg.budget } := by
  have hcount : s.icount < s.cfg.budget := (live_iff.1 hl).1
  have hstep (k : Nat) (hk : k < s.cfg.budget) : step { s with icount := k } = .next { s with icount := k + 1 } :=
    (step_eq_exec (live_with_icount hl hk) hpc hi).trans (hexec k)
  exact runLoop_of_counting_steps hl hstep hcount.le (Nat.le_add_left _ _)

end Sys2Proof.Machine
end

section
/-! PROOFS. JUMP, and ZJUMP as JUMP or NOP (spec 43_jump.md R130, R131). -/

namespace Sys2Proof.Machine

theorem exec_jump_of_target {n : Int} {s : State} (h : TargetInReach s n) :
    exec (.jump n) s = .next { s with pc := truncate9 (s.pc.toInt + n), icount := s.icount + 1 } :=
  exec_of_target (i := .jump n) nofun nofun h

/-- An encodable JUMP out of reach changes only the fault record, with either value of FAULT_COMMIT: nothing comes before
its `pc` update (R94, D5). -/
theorem exec_jump_of_outside {n : Int} {s : State} (hn : inSignedByte n = true) (hpc : PcOnCell s)
    (h : ¬ TargetInReach s n) : exec (.jump n) s = .next (recorded s (.pcOutOfBounds (truncate9 (s.pc.toInt + n)))) := by
  obtain ⟨lo, hi⟩ := inSignedByte_iff.1 hn
  rw [← takeFailure_self]
  exact exec_target_fails (i := .jump n) nofun nofun (not_pcInMemory_of_target hpc lo hi h)

theorem exec_jump_one (s : State) : exec (.jump 1) s = exec .nop s := rfl

theorem exec_jump_zero {s : State} (h : PcOnCell s) : exec (.jump 0) s = .next { s with icount := s.icount + 1 } :=
  congrArg (settle s) (advancePc_zero h)

theorem accIsZero_iff {s : State} : accIsZero s = true ↔ s.acc.toInt = 0 := beq_iff_eq

/-- The path taken (R131). -/
theorem exec_zjump_of_zero {s : State} (h : s.acc.toInt = 0) (n : Int) : exec (.zjump n) s = exec (.jump n) s :=
  congrArg (settle s) (if_pos (accIsZero_iff.2 h))

/-- The path not taken goes to the next cell, as `JUMP 1` does (R131). -/
theorem exec_zjump_of_ne_zero {s : State} (h : s.acc.toInt ≠ 0) (n : Int) : exec (.zjump n) s = exec (.jump 1) s :=
  congrArg (settle s) (if_neg (mt accIsZero_iff.1 h))

theorem exec_zjump_one (s : State) : exec (.zjump 1) s = exec .nop s := by
  rw [← exec_jump_one]
  by_cases h : s.acc.toInt = 0
  · exact exec_zjump_of_zero h 1
  · exact exec_zjump_of_ne_zero h 1

/-- Settles O36: JUMP is `AdvancePc` by its operand and nothing else, so it completes or fails as that does; by 0 it
leads back to itself and each iteration only counts. -/
theorem jumpIsRelativeToItself : Obligations.JumpIsRelativeToItself := by
  refine ⟨packWord_signedField_toNat (by decide), fun _ => decode_of_opcode_jump,
    fun _ _ h => ⟨exec_jump_of_target h, truncate9_toInt_of_target h⟩,
    fun _ _ => exec_jump_of_outside, exec_jump_one, fun s hl hpc hi => ?loop⟩
  case loop => exact run_of_self_loop hl hpc hi fun k => exec_jump_zero (s := { s with icount := k }) hpc

/-- Settles O37: ZJUMP is `JUMP n` when the accumulator is 0 and `JUMP 1` otherwise, so each clause is that JUMP's. -/
theorem zjumpTestsTheStoredAccumulator : Obligations.ZjumpTestsTheStoredAccumulator := by
  refine ⟨packWord_signedField_toNat (by decide), fun _ => decode_of_opcode_zjump,
    fun n s hz h => ⟨?taken, truncate9_toInt_of_target h⟩, fun n s hz h => ⟨?notTaken, truncate9_toInt_of_target h⟩,
    fun n s hn hpc hz h => ?takenFails, fun n s hpc hz h => ?notTakenFails, exec_zjump_one,
    fun s hl hpc hz hi => ?loop⟩
  case taken => rw [exec_zjump_of_zero hz, exec_jump_of_target h]
  case notTaken => rw [exec_zjump_of_ne_zero hz, exec_jump_of_target h]
  case takenFails => rw [exec_zjump_of_zero hz, exec_jump_of_outside hn hpc h]
  case notTakenFails => rw [exec_zjump_of_ne_zero hz, exec_jump_of_outside (by decide) hpc h]
  case loop =>
    exact run_of_self_loop hl hpc hi fun k =>
      (exec_zjump_of_zero (s := { s with icount := k }) hz 0).trans (exec_jump_zero hpc)

end Sys2Proof.Machine
end

section
/-! PROOFS. IllegalWord is defined and never raised (spec 60_exceptions.md R151). -/

namespace Sys2Proof.Machine

/-- The only failures an instruction takes are those of its data address and of its target (R152, R153), both recorded at
the `pc` of the step's start. -/
theorem exec_fault {i : Instr} {s t : State} (h : exec i s = .next t) :
    t.fault = s.fault ∨
    (∃ a, t.fault = some { cause := .addrOutOfBounds a, fpc := s.pc }) ∨
    (∃ p, t.fault = some { cause := .pcOutOfBounds p, fpc := s.pc }) := by
  obtain ⟨-, h⟩ | ⟨-, -, -, h⟩ | ⟨a, -, -, h⟩ | ⟨-, -, -, h⟩ := exec_cases h <;> cases h
  · exact .inl rfl
  · exact .inl (effectOf_fault i s)
  · exact .inr (.inl ⟨a, takeFailure_fault ..⟩)
  · exact .inr (.inr ⟨_, takeFailure_fault ..⟩)

/-- A record of IllegalWord after an instruction was there before it. -/
theorem exec_keeps_illegalWord {i : Instr} {s t : State} {r : FaultRecord} {w : Cell} (h : exec i s = .next t)
    (hr : t.fault = some r) (hc : r.cause = .illegalWord w) : s.fault = some r := by
  obtain hf | ⟨a, hf⟩ | ⟨p, hf⟩ := exec_fault h <;> rw [hr] at hf
  · exact hf.symm
  · cases hf; cases hc
  · cases hf; cases hc

/-- Settles O28: no word is refused, so the step's own IllegalWord branch is never taken, and an ended run or an
instruction makes no such record. -/
theorem illegalWordIsNeverRaised : Obligations.IllegalWordIsNeverRaised := by
  refine ⟨decode_ne_none, fun s t r w ht hr hc => ?_⟩
  obtain ⟨-, h⟩ | ⟨-, -, h⟩ | ⟨w', -, -, hrefused, -⟩ | ⟨w', i, -, -, -, h⟩ := step_cases ht
  · cases h; exact hr
  · cases h
  · exact absurd hrefused (decode_ne_none w')
  · exact exec_keeps_illegalWord h hr hc

end Sys2Proof.Machine
end

section
/-! PROOFS. What a step and an instruction that answer can have done (spec 40_engine.md R81, R94). -/

namespace Sys2Proof.Machine

/-- A step that answers a next state is that of an ended run, or executes the well-formed instruction at `pc`. -/
theorem step_next_cases {s t : State} (h : step s = .next t) :
    (live s = false ∧ t = s) ∨
    (live s = true ∧ PcOnCell s ∧
      ∃ i, decode (memRead s.mem s.pc.toInt.toNat) = some i ∧ i.WellFormed ∧ exec i s = .next t) := by
  obtain ⟨hl, ht⟩ | ⟨-, -, ht⟩ | ⟨w, -, -, hrefused, -⟩ | ⟨w, i, hl, hfetch, hi, hexec⟩ := step_cases h
  · cases ht; exact .inl ⟨hl, rfl⟩
  · cases ht
  · exact absurd hrefused (decode_ne_none w)
  · obtain ⟨hpc, rfl⟩ := fetch_eq_some.1 hfetch
    exact .inr ⟨hl, hpc, i, hi, decode_wellFormed hi, hexec⟩

theorem exists_exec_of_live_step {s t : State} (hl : live s = true) (h : step s = .next t) :
    ∃ i : Instr, i.WellFormed ∧ exec i s = .next t := by
  obtain ⟨hl', -⟩ | ⟨-, -, i, -, hwf, hexec⟩ := step_next_cases h
  · rw [hl] at hl'; cases hl'
  · exact ⟨i, hwf, hexec⟩

/-- A failure leaves its record on the state at the step's start or, under effect_first, on the state after the
effect (D5). -/
theorem takeFailure_effectOf_cases (c : FailureCause) (i : Instr) (s : State) :
    takeFailure c s (effectOf i s) = recorded s c ∨
    (s.cfg.faultCommit = .effectFirst ∧ takeFailure c s (effectOf i s) = recorded (effectOf i s) c) := by
  cases h : s.cfg.faultCommit with
  | precise => exact .inl (takeFailure_precise s _ c h)
  | effectFirst => exact .inr ⟨rfl, by rw [takeFailure_effectFirst s _ c h, recorded, effectOf_pc]⟩

theorem ne_halt_of_addressOf {i : Instr} {a : Nat} (h : addressOf i = some a) : i ≠ .halt := by
  rintro rfl
  cases h

/-- The next states of an instruction: HALT's, a completed one's, and a failed one's without and with its effect. -/
theorem exec_next_cases {i : Instr} {s t : State} (h : exec i s = .next t) :
    (i = .halt ∧ t = { s with running := false, icount := s.icount + 1 }) ∨
    (i ≠ .halt ∧ t = { effectOf i s with pc := truncate9 (s.pc.toInt + offsetOf i s), icount := s.icount + 1 }) ∨
    (i ≠ .halt ∧ ∃ c, t = recorded s c) ∨
    (i ≠ .halt ∧ s.cfg.faultCommit = .effectFirst ∧ ∃ c, t = recorded (effectOf i s) c) := by
  obtain ⟨hi, ht⟩ | ⟨hi, -, -, ht⟩ | ⟨a, ha, -, ht⟩ | ⟨hi, -, -, ht⟩ := exec_cases h <;> cases ht
  · exact .inl ⟨hi, rfl⟩
  · exact .inr (.inl ⟨hi, rfl⟩)
  · exact .inr (.inr (.inl ⟨ne_halt_of_addressOf ha, _, takeFailure_self _ s⟩))
  · obtain hkept | ⟨hcommit, hkept⟩ := takeFailure_effectOf_cases _ i s
    · exact .inr (.inr (.inl ⟨hi, _, hkept⟩))
    · exact .inr (.inr (.inr ⟨hi, hcommit, _, hkept⟩))

/-- Memory, log and accumulator after an instruction are those before it or those its effect leaves. -/
theorem exec_data_cases {i : Instr} {s t : State} (h : exec i s = .next t) :
    (t.mem = s.mem ∧ t.log = s.log ∧ t.acc = s.acc) ∨
    (t.mem = (effectOf i s).mem ∧ t.log = (effectOf i s).log ∧ t.acc = (effectOf i s).acc) := by
  obtain ⟨-, rfl⟩ | ⟨-, rfl⟩ | ⟨-, c, rfl⟩ | ⟨-, -, c, rfl⟩ := exec_next_cases h
  · exact .inl ⟨rfl, rfl, rfl⟩
  · exact .inr ⟨rfl, rfl, rfl⟩
  · exact .inl ⟨rfl, rfl, rfl⟩
  · exact .inr ⟨rfl, rfl, rfl⟩

/-- Only HALT writes the run flag (R100). -/
theorem exec_running {i : Instr} {s t : State} (hi : i ≠ .halt) (h : exec i s = .next t) : t.running = s.running := by
  obtain ⟨hhalt, -⟩ | ⟨-, rfl⟩ | ⟨-, c, rfl⟩ | ⟨-, -, c, rfl⟩ := exec_next_cases h
  · exact absurd hhalt hi
  · exact effectOf_running hi s
  · rfl
  · exact effectOf_running hi s

/-- An instruction other than HALT completes and is counted, or fails, is not counted and keeps `pc`. -/
theorem exec_completes_or_fails {i : Instr} {s t : State} (hi : i ≠ .halt) (h : exec i s = .next t) :
    (t.fault = s.fault ∧ t.icount = s.icount + 1) ∨
    (t.icount = s.icount ∧ t.pc = s.pc ∧ ∃ c, t.fault = some { cause := c, fpc := s.pc }) := by
  obtain ⟨hhalt, -⟩ | ⟨-, rfl⟩ | ⟨-, c, rfl⟩ | ⟨-, -, c, rfl⟩ := exec_next_cases h
  · exact absurd hhalt hi
  · exact .inl ⟨effectOf_fault i s, rfl⟩
  · exact .inr ⟨rfl, rfl, c, rfl⟩
  · exact .inr ⟨effectOf_icount i s, effectOf_pc i s, c,
      congrArg (fun p => some (FaultRecord.mk c p)) (effectOf_pc i s)⟩

/-- An instruction that leaves a fault record where there was none is not HALT, and failed in one of the two ways. -/
theorem exec_failed_cases {i : Instr} {s t : State} (hs : s.fault = none) (h : exec i s = .next t)
    (ht : t.fault ≠ none) :
    i ≠ .halt ∧
      ((∃ c, t = recorded s c) ∨ (s.cfg.faultCommit = .effectFirst ∧ ∃ c, t = recorded (effectOf i s) c)) := by
  obtain ⟨-, rfl⟩ | ⟨-, rfl⟩ | ⟨hi, hrecord⟩ | ⟨hi, hrecord⟩ := exec_next_cases h
  · exact absurd hs ht
  · exact absurd ((effectOf_fault i s).trans hs) ht
  · exact ⟨hi, .inl hrecord⟩
  · exact ⟨hi, .inr hrecord⟩

end Sys2Proof.Machine
end

section
/-! PROOFS. The invariant along a run, from construction on (spec 10_state.md sections 2 to 4). -/

namespace Sys2Proof.Machine

/-- Settles O16: the effect, the counted move of `pc`, HALT and the taking of a failure each keep the invariant, and a
step is one of these. -/
theorem stepKeepsInvariant : Obligations.StepKeepsInvariant :=
  fun _ _ => step_inv

theorem construct_of_excess_nonpos {excess : Int} (h : excess ≤ 0) (words : List Cell) (budget : Int) :
    construct words excess budget = .rejected .excessNotPositive :=
  if_pos h

theorem construct_of_budget_nonpos {excess budget : Int} (he : 0 < excess) (hb : budget ≤ 0) (words : List Cell) :
    construct words excess budget = .rejected .budgetNotPositive := by
  rw [construct, if_neg (Int.not_le.2 he), if_pos hb]

/-- A machine comes of positive parameters only, and is the one that construction lays out (R2, R180). -/
theorem construct_eq_machine {words : List Cell} {excess budget : Int} {s : State}
    (h : construct words excess budget = .machine s) :
    0 < excess ∧ 0 < budget ∧
      s = { State.reset with
        cfg := { Config.default with progLen := words.length, excess := excess.toNat, budget := budget.toNat }
        mem := layoutFrom 0 words } := by
  obtain he | he := le_or_gt excess 0
  · rw [construct_of_excess_nonpos he] at h; cases h
  obtain hb | hb := le_or_gt budget 0
  · rw [construct_of_budget_nonpos he hb] at h; cases h
  · rw [construct_of_pos he hb] at h; cases h; exact ⟨he, hb, rfl⟩

/-- Construction establishes the invariant: the layout is canonical and inside memory, the registers are at reset. -/
theorem construct_inv {words : List Cell} {excess budget : Int} {s : State}
    (h : construct words excess budget = .machine s) : s.Inv := by
  obtain ⟨he, hb, rfl⟩ := construct_eq_machine h
  have hexcess : 0 < excess.toNat := Int.pos_iff_toNat_pos.1 he
  exact {
    legal := ⟨hexcess, Int.pos_iff_toNat_pos.1 hb, le_rfl⟩
    memWf := layoutFrom_wf 0 words
    memInBounds := fun p hp => by
      obtain ⟨-, hlt, -⟩ := mem_layoutFrom hp
      show p.1 < words.length + excess.toNat
      omega
    pcOnCell := by
      show (0 : Int) ≤ 0 ∧ (0 : Int) < ((words.length + excess.toNat : Nat) : Int)
      omega
    icountLe := Nat.zero_le _
    logRising := .nil
    logInReach := nofun
    logAgrees := nofun
    faultPc := nofun
    faultRunning := nofun
    faultCount := nofun
    faultLegal := nofun }

/-- Settles O15: the constructed machine is the one of `construct_eq_machine`, which meets every field. -/
theorem constructedMachineMeetsInvariant : Obligations.ConstructedMachineMeetsInvariant :=
  fun _ _ _ _ => construct_inv

/-- Settles O14: the reset state is the machine constructed from no words with the default parameters. -/
theorem resetMeetsInvariant : Obligations.ResetMeetsInvariant :=
  construct_inv (words := []) (excess := 60) (budget := 100000) (construct_of_pos (by decide) (by decide) [])

/-- Settles O13: a parameter that is not positive rejects, and two positive ones give a machine. -/
theorem constructionRejectsNonPositive : Obligations.ConstructionRejectsNonPositive := by
  intro words excess budget
  constructor
  · rintro ⟨why, h⟩
    by_contra hpos
    rw [not_or, Int.not_le, Int.not_le] at hpos
    rw [construct_of_pos hpos.1 hpos.2] at h
    cases h
  · intro h
    obtain he | he := le_or_gt excess 0
    · exact ⟨_, construct_of_excess_nonpos he words budget⟩
    · exact ⟨_, construct_of_budget_nonpos he (h.resolve_left (Int.not_le.2 he)) words⟩

/-- Settles O18: an instruction halts, completes or fails, and each is a next state. -/
theorem everyInstructionAnswersNext : Obligations.EveryInstructionAnswersNext := fun i s =>
  have ⟨t, ht, _⟩ := exec_counts_or_fails i s
  ⟨t, ht⟩

/-- Settles O17: an ended run answers itself, and a live one executes the instruction at `pc`, which is on a cell. -/
theorem stepNeverStopsInARun : Obligations.StepNeverStopsInARun := by
  intro s h
  cases hl : live s with
  | false => exact ⟨s, step_of_not_live hl⟩
  | true =>
    obtain ⟨t, ht, -⟩ := step_counts_or_fails hl h.pcOnCell
    exact ⟨t, ht⟩

/-- Settles O29: the parameters survive HALT, every effect and every failure. -/
theorem stepKeepsTheParameters : Obligations.StepKeepsTheParameters :=
  fun _ _ => step_cfg

/-- Settles O19: the fetch reads the cell at `pc`, and its word decodes to the instruction executed. -/
theorem stepRunsDecodedInstruction : Obligations.StepRunsDecodedInstruction :=
  fun _ _ => step_eq_exec

/-- Settles O20: each of the three ends makes the loop's condition false. -/
theorem endedRunKeepsItsState : Obligations.EndedRunKeepsItsState := by
  intro s hend
  refine step_of_not_live (Bool.eq_false_iff.2 fun hl => ?_)
  obtain ⟨hcount, hrun, hfault⟩ := live_iff.1 hl
  obtain h | h | h := hend
  · rw [hrun] at h; cases h
  · rw [hfault] at h; cases h
  · exact Nat.not_lt.2 h hcount

end Sys2Proof.Machine
end

section
/-! PROOFS. Cells beyond the reach of a byte address have no influence (spec 20_memory.md R36). -/

namespace Sys2Proof.Machine

/-- Two memories agree on every cell an instruction can reach: `pc` and the address operands are at most 255 (R36). -/
def AgreeInReach (m m' : Memory) : Prop := ∀ a, a < 256 → memRead m' a = memRead m a

theorem agreeInReach_memWrite {m m' : Memory} (h : AgreeInReach m m') (addr : Nat) (v : Cell) :
    AgreeInReach (memWrite m addr v) (memWrite m' addr v) := by
  intro a ha
  rw [memRead_memWrite, memRead_memWrite, h a ha]

/-- The state with another memory. -/
def State.withMem (s : State) (m : Memory) : State := { s with mem := m }

theorem offsetOf_withMem (i : Instr) (s : State) (m : Memory) : offsetOf i (s.withMem m) = offsetOf i s := by
  cases i <;> rfl

/-- The effect of a well-formed instruction reads cells in reach only, and keeps the agreement on them. -/
theorem effectOf_withMem {i : Instr} {s : State} {m : Memory} (hwf : i.WellFormed) (h : AgreeInReach s.mem m) :
    ∃ m', effectOf i (s.withMem m) = (effectOf i s).withMem m' ∧ AgreeInReach (effectOf i s).mem m' := by
  cases i with
  | read addr =>
    have hcell : memRead m addr = memRead s.mem addr := h addr (Nat.lt_succ_of_le (of_decide_eq_true hwf))
    exact ⟨m, congrArg (fun w : Cell => { s.withMem m with acc := truncate9 w.toInt }) hcell, h⟩
  | write addr => exact ⟨_, rfl, agreeInReach_memWrite h addr (cellOfAcc s.acc)⟩
  | halt => exact ⟨m, rfl, h⟩
  | nop => exact ⟨m, rfl, h⟩
  | add a b => exact ⟨m, rfl, h⟩
  | shift n => exact ⟨m, rfl, h⟩
  | inc n => exact ⟨m, rfl, h⟩
  | jump n => exact ⟨m, rfl, h⟩
  | zjump n => exact ⟨m, rfl, h⟩

theorem takeFailure_withMem {s at_ : State} {m m' : Memory} (c : FailureCause) (h : AgreeInReach s.mem m)
    (h' : AgreeInReach at_.mem m') :
    ∃ m'', takeFailure c (s.withMem m) (at_.withMem m') = (takeFailure c s at_).withMem m'' ∧
      AgreeInReach (takeFailure c s at_).mem m'' := by
  cases hc : s.cfg.faultCommit with
  | precise =>
    rw [takeFailure_precise s at_ c hc, takeFailure_precise (s.withMem m) _ c hc]
    exact ⟨m, rfl, h⟩
  | effectFirst =>
    rw [takeFailure_effectFirst s at_ c hc, takeFailure_effectFirst (s.withMem m) _ c hc]
    exact ⟨m', rfl, h'⟩

/-- A well-formed instruction does the same on memories that agree in reach, but for the cells beyond. -/
theorem exec_withMem {i : Instr} {s t : State} {m : Memory} (hwf : i.WellFormed) (h : AgreeInReach s.mem m)
    (ht : exec i s = .next t) : ∃ m', exec i (s.withMem m) = .next (t.withMem m') ∧ AgreeInReach t.mem m' := by
  obtain ⟨m', heff, hagree⟩ := effectOf_withMem hwf h
  have hoff := offsetOf_withMem i s m
  obtain ⟨rfl, ht⟩ | ⟨hi, haddr, hpc, ht⟩ | ⟨a, ha, hout, ht⟩ | ⟨hi, haddr, hpc, ht⟩ := exec_cases ht <;> cases ht
  · exact ⟨m, rfl, h⟩
  · refine ⟨m', ?_, hagree⟩
    rw [exec_completes (s := s.withMem m) hi haddr (by rwa [hoff]), heff, hoff]
    rfl
  · obtain ⟨m'', hm, hagree'⟩ := takeFailure_withMem (.addrOutOfBounds a) h h
    exact ⟨m'', by rw [exec_address_fails (s := s.withMem m) ha hout, hm], hagree'⟩
  · rw [← hoff] at hpc
    obtain ⟨m'', hm, hagree'⟩ := takeFailure_withMem (.pcOutOfBounds (truncate9 (s.pc.toInt + offsetOf i s))) h hagree
    refine ⟨m'', ?_, hagree'⟩
    rw [exec_target_fails (s := s.withMem m) hi haddr hpc, heff, hoff]
    exact congrArg _ hm

theorem pc_toNat_lt (s : State) : s.pc.toInt.toNat < 256 := by
  have := word9_range s.pc
  omega

/-- Settles O48: a live step fetches at a nine-bit `pc`, so from a cell in reach, and executes the same well-formed
instruction on both memories. -/
theorem highCellsHaveNoInfluence : Obligations.HighCellsHaveNoInfluence := by
  intro s t m h ht
  obtain ⟨hl, rfl⟩ | ⟨hl, hpc, i, hi, hwf, hexec⟩ := step_next_cases ht
  · exact ⟨m, step_of_not_live hl, h⟩
  · rw [← h _ (pc_toNat_lt s)] at hi
    obtain ⟨m', hexec', hagree⟩ := exec_withMem hwf h hexec
    exact ⟨m', (step_eq_exec (s := s.withMem m) hl hpc hi).trans hexec', hagree⟩

end Sys2Proof.Machine
end

section
/-! PROOFS. How a step counts, and what a failing one keeps (spec 40_engine.md sections 1 to 3). -/

namespace Sys2Proof.Machine

/-- Settles O23: a live step starts without a fault and below the budget, so the instruction's count or its failure is
what the next state shows. -/
theorem stepCountsCompletedInstructions : Obligations.StepCountsCompletedInstructions := by
  intro s t hl ht
  obtain ⟨i, -, hexec⟩ := exists_exec_of_live_step hl ht
  obtain ⟨hcount, -, hfault⟩ := live_iff.1 hl
  obtain ⟨u, hu, hprogress⟩ := exec_counts_or_fails i s
  rw [hexec] at hu
  cases hu
  rw [step_cfg ht]
  obtain ⟨hcounted, hnone⟩ | ⟨hkept, hfailed⟩ := hprogress
  · exact ⟨by omega, .inl ⟨hnone.trans hfault, hcounted⟩⟩
  · exact ⟨by omega, .inr ⟨Option.isSome_iff_ne_none.1 hfailed, hkept⟩⟩

/-- Settles O24: of the two states a failure can leave, `precise` has the one that keeps no effect. -/
theorem failingStepCommitsOnlyTheRecord : Obligations.FailingStepCommitsOnlyTheRecord := by
  intro s t hprecise hl ht hfailed
  obtain ⟨i, -, hexec⟩ := exists_exec_of_live_step hl ht
  obtain ⟨-, -, hfault⟩ := live_iff.1 hl
  obtain ⟨-, hrecord | ⟨heffect, -⟩⟩ := exec_failed_cases hfault hexec hfailed
  · exact hrecord
  · rw [hprecise] at heffect; cases heffect

/-- A target out of reach is taken as a failure after the effect (R86, R94). -/
theorem exec_of_target_outside {i : Instr} {s : State} (hi : i ≠ .halt) (haddr : ∀ a ∈ addressOf i, a < s.cfg.memLen)
    (hpc : PcOnCell s) (lo : -128 ≤ offsetOf i s) (hhi : offsetOf i s ≤ 127) (h : ¬ TargetInReach s (offsetOf i s)) :
    exec i s = .next (takeFailure (.pcOutOfBounds (truncate9 (s.pc.toInt + offsetOf i s))) s (effectOf i s)) :=
  exec_target_fails hi haddr (not_pcInMemory_of_target hpc lo hhi h)

/-- Under effect_first an instruction that goes on to the next cell keeps its effect where that cell is out of reach
(D5). -/
theorem exec_effectFirst_of_outside {i : Instr} {s : State} (hi : i ≠ .halt)
    (haddr : ∀ a ∈ addressOf i, a < s.cfg.memLen) (hoff : offsetOf i s = 1) (hcommit : s.cfg.faultCommit = .effectFirst)
    (hpc : PcOnCell s) (h : ¬ TargetInReach s 1) :
    exec i s = .next (recorded (effectOf i s) (.pcOutOfBounds (truncate9 (s.pc.toInt + 1)))) := by
  rw [exec_of_target_outside hi haddr hpc (by omega) (by omega) (by rwa [hoff]), takeFailure_effectFirst _ _ _ hcommit,
    hoff, recorded, effectOf_pc]

theorem shiftExact_zero (w : Nat) (acc : Int) : shiftExact w acc 0 = acc := rfl

theorem shiftExact_of_neg {n : Int} (h : n < 0) (w : Nat) (acc : Int) : shiftExact w acc n = acc * 2 ^ (-n).toNat := by
  rw [shiftExact, if_neg (by omega), if_pos h]

theorem shiftExact_of_pos {n : Int} (h : 0 < n) (w : Nat) (acc : Int) :
    shiftExact w acc n = acc % 2 ^ w / 2 ^ n.toNat :=
  if_pos h

/-- SHIFT's result by the sign of its count (R111). -/
theorem shiftAcc_acc_cases (n : Int) (s : State) :
    (n = 0 → (shiftAcc n s).acc = s.acc) ∧
    (n < 0 → (shiftAcc n s).acc = truncate9 (s.acc.toInt * 2 ^ (-n).toNat)) ∧
    (0 < n → (shiftAcc n s).acc = truncate9 (s.acc.toInt % 2 ^ s.cfg.shiftW / 2 ^ n.toNat)) := by
  rw [shiftAcc_acc]
  refine ⟨?zero, fun h => by rw [shiftExact_of_neg h], fun h => by rw [shiftExact_of_pos h]⟩
  rintro rfl
  rw [shiftExact_zero, truncate9_toInt_self]

/-- Settles O25: the first part reads the two states a failure can leave; in the second the failure leaves the record on
the state after the effect, which is the kind's own. -/
theorem effectFirstKeepsTheEffect : Obligations.EffectFirstKeepsTheEffect := by
  refine ⟨fun s t _ hl ht hfailed => ?kept, fun s hcommit hpc h => ?effects⟩
  case kept =>
    obtain ⟨i, -, hexec⟩ := exists_exec_of_live_step hl ht
    obtain ⟨-, -, hfault⟩ := live_iff.1 hl
    obtain ⟨hi, -⟩ := exec_failed_cases hfault hexec hfailed
    obtain ⟨hnone, -⟩ | ⟨hcount, hsame, -⟩ := exec_completes_or_fails hi hexec
    · exact absurd (hnone.trans hfault) hfailed
    · exact ⟨hsame, hcount, exec_running hi hexec, exec_cfg hexec⟩
  case effects =>
    have hexec {i : Instr} (hi : i ≠ .halt) (haddr : ∀ a ∈ addressOf i, a < s.cfg.memLen) (hoff : offsetOf i s = 1) :=
      exec_effectFirst_of_outside hi haddr hoff hcommit hpc h
    refine ⟨fun a b => hexec (i := .add a b) nofun nofun rfl,
      fun n => ⟨_, hexec (i := .shift n) nofun nofun rfl, shiftAcc_acc_cases n s⟩,
      fun n => hexec (i := .inc n) nofun nofun rfl,
      fun addr ha => hexec (i := .read addr) nofun (forall_addressOf_lt rfl ha) rfl,
      fun addr ha => ⟨_, hexec (i := .write addr) nofun (forall_addressOf_lt rfl ha) rfl, rfl, ?_⟩⟩
    exact ⟨memRead_memWrite_same .., fun _ hne => memRead_memWrite_other hne .., tableGet_tableSet_same ..,
      fun _ hne => tableGet_tableSet_other hne ..⟩

/-- The offset of an encodable instruction is an encodable one, or the 1 to the next cell (R54). -/
theorem offsetOf_range {i : Instr} (hwf : i.WellFormed) (s : State) : -128 ≤ offsetOf i s ∧ offsetOf i s ≤ 127 := by
  have hnext : -128 ≤ (1 : Int) ∧ (1 : Int) ≤ 127 := by decide
  cases i with
  | jump n => exact inSignedByte_iff.1 hwf
  | zjump n =>
    rw [offsetOf]
    split
    · exact inSignedByte_iff.1 hwf
    · exact hnext
  | halt => exact hnext
  | add a b => exact hnext
  | shift n => exact hnext
  | read addr => exact hnext
  | write addr => exact hnext
  | inc n => exact hnext
  | nop => exact hnext

/-- Settles O26: the instruction fails after its effect, and the failure keeps the bookkeeping; `precise` keeps the data
too. -/
theorem targetOutOfReachFails : Obligations.TargetOutOfReachFails := by
  intro i s hwf hi hpc haddr h
  obtain ⟨lo, hhi⟩ := offsetOf_range hwf s
  have hexec := exec_of_target_outside hi haddr hpc lo hhi h
  refine ⟨_, hexec, takeFailure_fault .., ?pc, takeFailure_icount (effectOf_icount i s),
    exec_running hi hexec, ?precise⟩
  case pc => exact takeFailure_cases _ _ _ (·.pc = s.pc) rfl (effectOf_pc i s)
  case precise => intro hprecise; rw [takeFailure_precise _ _ _ hprecise]

/-- Settles O27: the bounds check raises before the effect, so both values of FAULT_COMMIT keep the record alone. -/
theorem addressOutOfBoundsComesFirst : Obligations.AddressOutOfBoundsComesFirst :=
  fun _ _ _ => exec_of_address_outside

end Sys2Proof.Machine
end

section
/-! PROOFS. What each kind of instruction leaves unchanged (spec 41_halt_nop.md to 44_read_write.md, 20_memory.md). -/

namespace Sys2Proof.Machine

/-- Settles O40: completion keeps the fault record, a failure keeps the count and `pc`. -/
theorem completesOrFailsFrame : Obligations.CompletesOrFailsFrame :=
  fun _ _ _ hi h => ⟨exec_cfg h, exec_running hi h, exec_completes_or_fails hi h⟩

/-- The effect of the accumulator forms is on the accumulator alone. -/
theorem effectOf_accumulatorForm {i : Instr} (h : i.kind ∈ [Kind.add, Kind.shift, Kind.inc, Kind.read]) (s : State) :
    (effectOf i s).mem = s.mem ∧ (effectOf i s).log = s.log := by
  cases i with
  | add a b => exact ⟨rfl, rfl⟩
  | shift n => exact ⟨rfl, rfl⟩
  | inc n => exact ⟨rfl, rfl⟩
  | read addr => exact ⟨rfl, rfl⟩
  | halt | nop | jump n | zjump n | write addr => simp [Instr.kind] at h

/-- Settles O41: memory and log are those before the instruction or after its effect, which are the same. -/
theorem accumulatorFormsFrame : Obligations.AccumulatorFormsFrame := by
  intro i s t hkind h
  have hi : i ≠ .halt := by rintro rfl; simp [Instr.kind] at hkind
  obtain ⟨hmem, hlog⟩ := effectOf_accumulatorForm hkind s
  obtain ⟨hm, hl, -⟩ | ⟨hm, hl, -⟩ := exec_data_cases h
  · exact ⟨exec_cfg h, exec_running hi h, hl, fun a => by rw [hm]⟩
  · exact ⟨exec_cfg h, exec_running hi h, hl.trans hlog, fun a => by rw [hm, hmem]⟩

/-- The effect of the control forms is on no data. -/
theorem effectOf_controlForm {i : Instr} (h : i.kind ∈ [Kind.halt, Kind.nop, Kind.jump, Kind.zjump]) (s : State) :
    (effectOf i s).mem = s.mem ∧ (effectOf i s).log = s.log ∧ (effectOf i s).acc = s.acc := by
  cases i with
  | halt => exact ⟨rfl, rfl, rfl⟩
  | nop => exact ⟨rfl, rfl, rfl⟩
  | jump n => exact ⟨rfl, rfl, rfl⟩
  | zjump n => exact ⟨rfl, rfl, rfl⟩
  | add a b | shift n | inc n | read addr | write addr => simp [Instr.kind] at h

/-- Settles O42: the data are those before the instruction or after its effect, which are the same; HALT's one next
state is `exec_halt`. -/
theorem controlFormsFrame : Obligations.ControlFormsFrame := by
  intro i s t hkind h
  have hdata : t.mem = s.mem ∧ t.log = s.log ∧ t.acc = s.acc := by
    obtain ⟨hmem, hlog, hacc⟩ := effectOf_controlForm hkind s
    obtain hsame | ⟨hm, hl, ha⟩ := exec_data_cases h
    · exact hsame
    · exact ⟨hm.trans hmem, hl.trans hlog, ha.trans hacc⟩
  obtain ⟨hmem, hlog, hacc⟩ := hdata
  refine ⟨exec_cfg h, hacc, hlog, fun a => by rw [hmem], fun hi => exec_running hi h, ?halt⟩
  rintro rfl
  rw [exec_halt] at h
  cases h
  exact ⟨rfl, rfl⟩

/-- Only the cell at the data address, and its log entry, can change by an instruction's effect. -/
theorem effectOf_other_cell {i : Instr} {a : Nat} (h : ∀ addr, i = .write addr → a ≠ addr) (s : State) :
    memRead (effectOf i s).mem a = memRead s.mem a ∧ tableGet (effectOf i s).log a = tableGet s.log a := by
  cases i with
  | write addr => exact ⟨memRead_memWrite_other (h addr rfl) .., tableGet_tableSet_other (h addr rfl) ..⟩
  | halt | nop | add a b | shift n | jump n | zjump n | read addr | inc n => exact ⟨rfl, rfl⟩

/-- Completing or failing, an instruction changes no cell and no log entry but those at WRITE's address. -/
theorem exec_other_cell {i : Instr} {s t : State} {a : Nat} (h : exec i s = .next t)
    (hne : ∀ addr, i = .write addr → a ≠ addr) :
    memRead t.mem a = memRead s.mem a ∧ tableGet t.log a = tableGet s.log a := by
  obtain ⟨hmem, hlog, -⟩ | ⟨hmem, hlog, -⟩ := exec_data_cases h <;> rw [hmem, hlog]
  · exact ⟨rfl, rfl⟩
  · exact effectOf_other_cell hne s

/-- Settles O43: WRITE's effect is on the cell and the log entry at its address. -/
theorem storeFormFrame : Obligations.StoreFormFrame := by
  intro addr s t h
  have hacc : t.acc = s.acc := by
    obtain ⟨-, -, hacc⟩ | ⟨-, -, hacc⟩ := exec_data_cases h <;> exact hacc
  have hother (a : Nat) (hne : a ≠ addr) := exec_other_cell (a := a) h (by rintro _ ⟨⟩; exact hne)
  exact ⟨exec_cfg h, hacc, exec_running (i := .write addr) nofun h, fun a hne => (hother a hne).1,
    fun a hne => (hother a hne).2⟩

/-- Settles O47: the address of a decoded WRITE is a byte. -/
theorem highCellsNeverChange : Obligations.HighCellsNeverChange := by
  intro s t h a ha
  obtain ⟨-, rfl⟩ | ⟨-, -, i, -, hwf, hexec⟩ := step_next_cases h
  · exact ⟨rfl, rfl⟩
  · refine exec_other_cell hexec fun addr hwrite => ?_
    rw [hwrite] at hwf
    have hbyte : addr ≤ 255 := of_decide_eq_true hwf
    omega

/-- The log after an effect: WRITE's entry, and nothing else new (R18). -/
theorem tableGet_effectOf_log (i : Instr) (s : State) (a : Nat) :
    tableGet (effectOf i s).log a = if i = .write a then some s.acc else tableGet s.log a := by
  by_cases hwrite : i = .write a
  · rw [if_pos hwrite, hwrite]
    exact tableGet_tableSet_same s.log a s.acc
  · rw [if_neg hwrite]
    exact (effectOf_other_cell (fun addr hi ha => hwrite (hi.trans (congrArg Instr.write ha.symm))) s).2

/-- Settles O46: HALT and a failure under `precise` keep the log, and a completed instruction leaves its effect's. -/
theorem onlyCompletedWritesAreLogged : Obligations.OnlyCompletedWritesAreLogged := by
  intro s t i hprecise hl hpc hi h a
  obtain ⟨-, -, hfault⟩ := live_iff.1 hl
  rw [step_eq_exec hl hpc hi] at h
  obtain ⟨rfl, rfl⟩ | ⟨-, rfl⟩ | ⟨-, c, rfl⟩ | ⟨-, heffect, -⟩ := exec_next_cases h
  · rw [if_neg (fun hwrite => nomatch hwrite.1)]
  · simp only [effectOf_fault, hfault, and_true, tableGet_effectOf_log]
  · rw [if_neg (fun hwrite => nomatch hwrite.2)]
  · rw [hprecise] at heffect; cases heffect

end Sys2Proof.Machine
end

section
/-! PROOFS. NOP, ADD and SHIFT (spec 41_halt_nop.md R101, 42_alu.md R110, R111). -/

namespace Sys2Proof.Machine

/-- Every word with opcode 0 is a NOP, since HALT's has INC's opcode (R56, R101). -/
theorem decode_of_opcode_zero {w : Cell} (h : opcodeField w = 0) : decode w = some .nop := by
  have hw : w ≠ haltWord := by rintro rfl; cases h
  rw [decode_of_ne_haltWord hw, h]
  rfl

/-- Settles O32: NOP has no effect, so it completes with the next `pc`, or its failure keeps nothing but the record. -/
theorem nopOnlyAdvances : Obligations.NopOnlyAdvances := by
  refine ⟨fun _ => decode_of_opcode_zero, rfl, fun s h => exec_of_target (i := .nop) nofun nofun h,
    fun s hpc h => ?_⟩
  rw [exec_of_target_outside (i := .nop) nofun nofun hpc (offsetOf_range rfl s).1 (offsetOf_range rfl s).2 h]
  exact congrArg _ (takeFailure_self _ s)

/-- Settles O33: the sum of two signed bytes is in the nine-bit range, where normalization changes nothing. -/
theorem addLoadsTheSum : Obligations.AddLoadsTheSum := by
  intro a b s hwf h
  obtain ⟨ha, hb⟩ := add_wellFormed_iff.1 hwf
  obtain ⟨alo, ahi⟩ := inSignedByte_iff.1 ha
  obtain ⟨blo, bhi⟩ := inSignedByte_iff.1 hb
  exact ⟨exec_of_target (i := .add a b) nofun nofun h, truncate9_toInt_of_range (by omega) (by omega),
    truncate9_toInt_of_target h⟩

/-- Multiplying by a power of two, normalized, is the left shift of the nine bits (R111, D3). -/
theorem truncate9_mul_two_pow (v : Word9) (k : Nat) : truncate9 (v.toInt * 2 ^ k) = v <<< k := by
  refine BitVec.eq_of_toInt_eq ?_
  rw [truncate9_toInt, BitVec.toInt_shiftLeft, Nat.shiftLeft_eq, BitVec.toInt_eq_toNat_bmod]
  push_cast
  exact Int.bmod_mul_bmod

/-- The unsigned reading of a nine-bit word. -/
theorem word9_emod (v : Word9) : v.toInt % 512 = (v.toNat : Int) := by
  have := v.isLt
  rw [BitVec.toInt_eq_toNat_cond]
  split <;> omega

/-- Dividing the nine-bit pattern by a power of two is the logical right shift (R111, D4). -/
theorem word9_emod_div_two_pow (v : Word9) (k : Nat) : v.toInt % 512 / 2 ^ k = ((v >>> k).toNat : Int) := by
  rw [word9_emod, BitVec.toNat_ushiftRight, Nat.shiftRight_eq_div_pow]
  norm_cast

theorem truncate9_toNat (v : Word9) : truncate9 (v.toNat : Int) = v := by
  rw [truncate9, BitVec.ofInt_natCast, BitVec.ofNat_toNat, BitVec.setWidth_eq]

section
variable {n : Int} {s : State}

/-- A negative count shifts the nine bits left (R111). -/
theorem shiftAcc_acc_of_neg (h : n < 0) : (shiftAcc n s).acc = s.acc <<< (-n).toNat := by
  rw [shiftAcc_acc, shiftExact_of_neg h, truncate9_mul_two_pow]

/-- With SHIFT_W = 9 a positive count shifts the nine bits right, logically (R111, D4). -/
theorem shiftAcc_acc_of_pos (h : 0 < n) (hw : s.cfg.shiftW = 9) : (shiftAcc n s).acc = s.acc >>> n.toNat := by
  rw [shiftAcc_acc, shiftExact_of_pos h, hw, ← truncate9_toNat (s.acc >>> n.toNat), ← word9_emod_div_two_pow]
  rfl

/-- The bit shifted in at the top makes the result of a right shift non-negative. -/
theorem shiftAcc_toInt_of_pos (h : 0 < n) (hw : s.cfg.shiftW = 9) :
    (shiftAcc n s).acc.toInt = s.acc.toInt % 512 / 2 ^ n.toNat ∧ 0 ≤ (shiftAcc n s).acc.toInt := by
  have hcount : 0 < n.toNat := Int.pos_iff_toNat_pos.1 h
  rw [shiftAcc_acc_of_pos h hw, word9_emod_div_two_pow, BitVec.toInt_ushiftRight_of_lt hcount, BitVec.toNat_ushiftRight]
  exact ⟨rfl, Int.natCast_nonneg _⟩

/-- On a non-negative accumulator every legal SHIFT_W gives the plain quotient. -/
theorem shiftAcc_toInt_of_nonneg (h : 0 < n) (hw : 9 ≤ s.cfg.shiftW) (hacc : 0 ≤ s.acc.toInt) :
    (shiftAcc n s).acc.toInt = s.acc.toInt / 2 ^ n.toNat := by
  have hrange := (word9_range s.acc).2
  have hpow : (2 : Int) ^ 9 ≤ 2 ^ s.cfg.shiftW := pow_le_pow_right₀ (by decide) hw
  have hquotient : s.acc.toInt / 2 ^ n.toNat ≤ s.acc.toInt := Int.ediv_le_self _ hacc
  have hnonneg : 0 ≤ s.acc.toInt / 2 ^ n.toNat := Int.ediv_nonneg hacc (by positivity)
  rw [shiftAcc_acc, shiftExact_of_pos h, Int.emod_eq_of_lt hacc (by omega),
    truncate9_toInt_of_range (by omega) (by omega)]

theorem shiftAcc_acc_of_zero (h : s.acc = 0) : (shiftAcc n s).acc = 0 := by
  have hexact : shiftExact s.cfg.shiftW 0 n = 0 := by
    obtain hn | rfl | hn := lt_trichotomy n 0
    · rw [shiftExact_of_neg hn, Int.zero_mul]
    · exact shiftExact_zero ..
    · rw [shiftExact_of_pos hn, Int.zero_emod, Int.zero_ediv]
  rw [shiftAcc_acc, h]
  exact congrArg truncate9 hexact

/-- Left by 8, only the lowest bit is left, in the sign's place. -/
theorem shiftAcc_toInt_neg_eight (h : n = -8) :
    (shiftAcc n s).acc.toInt = if s.acc.toInt % 2 = 1 then -256 else 0 := by
  subst h
  rw [shiftAcc_acc, shiftExact_of_neg (by decide), truncate9_toInt_eq_emod]
  show (if 256 ≤ s.acc.toInt * 256 % 512 then s.acc.toInt * 256 % 512 - 512 else s.acc.toInt * 256 % 512) = _
  by_cases hodd : s.acc.toInt % 2 = 1
  · rw [if_pos hodd, if_pos (by omega)]; omega
  · rw [if_neg hodd, if_neg (by omega)]; omega

end

/-- Settles O34: SHIFT completes, and each clause is a rule for its count's sign: the plain quotient or product, the
nine-bit shift it is, and what that shift leaves at 8 and from 9 on. -/
theorem shiftIsExactAndLogical : Obligations.ShiftIsExactAndLogical := by
  intro n s _ h
  obtain ⟨hzero, hneg, hpos⟩ := shiftAcc_acc_cases n s
  refine ⟨(shiftAcc n s).acc, exec_of_target (i := .shift n) nofun nofun h, hzero,
    fun hn => ⟨hneg hn, shiftAcc_acc_of_neg hn⟩, hpos, fun hn hw => ?right, shiftAcc_toInt_of_nonneg,
    fun hn hw => ?rightOut, fun hn => ?leftOut, shiftAcc_toInt_neg_eight, shiftAcc_acc_of_zero⟩
  case right =>
    obtain ⟨hvalue, hnonneg⟩ := shiftAcc_toInt_of_pos hn hw
    exact ⟨shiftAcc_acc_of_pos hn hw, hvalue, hnonneg, Int.le_of_lt_add_one (word9_range _).2⟩
  case rightOut => rw [shiftAcc_acc_of_pos (by omega) hw]; exact BitVec.ushiftRight_eq_zero (by omega)
  case leftOut => rw [shiftAcc_acc_of_neg (by omega)]; exact BitVec.shiftLeft_eq_zero (by omega)

end Sys2Proof.Machine
end

section
/-! PROOFS. What a store leaves for a later READ and for the next fetch (spec 20_memory.md R39, R41). -/

namespace Sys2Proof.Machine

/-- Settles O44: READ's next cell is one further on, and the cell's low nine bits are the stored accumulator. -/
theorem readAfterWriteReturnsTheValue : Obligations.ReadAfterWriteReturnsTheValue := by
  intro addr s ha h1 h2
  have hpc := truncate9_toInt_of_target h1
  have haddr {i : Instr} (hi : addressOf i = some addr) := forall_addressOf_lt hi ha
  refine ⟨_, _, exec_of_target (i := .write addr) nofun (haddr rfl) h1,
    exec_of_target (i := .read addr) nofun (haddr rfl) ?next, ?value⟩
  case next =>
    show 0 ≤ (truncate9 (s.pc.toInt + 1)).toInt + 1 ∧ (truncate9 (s.pc.toInt + 1)).toInt + 1 < s.cfg.memLen ∧
      (truncate9 (s.pc.toInt + 1)).toInt + 1 ≤ 255
    omega
  case value =>
    show truncate9 (memRead (memWrite s.mem addr (cellOfAcc s.acc)) addr).toInt = s.acc
    rw [memRead_memWrite_same, truncate9_cellOfAcc]

/-- The pattern of a stored accumulator value, as a 24-bit number (R34). -/
theorem cellOfAcc_toNat (v : Word9) : ((cellOfAcc v).toNat : Int) = v.toInt % 2 ^ 24 := by
  have hlt := (cellOfAcc v).isLt
  rw [← cellOfAcc_toInt, BitVec.toInt_eq_toNat_cond]
  split <;> omega

/-- Data as instructions: -1 is HALT, a value from 0 on a NOP, and any other `INC -1` (R59, D1). -/
theorem decode_cellOfAcc (v : Word9) :
    decode (cellOfAcc v) = some (if v.toInt = -1 then .halt else if 0 ≤ v.toInt then .nop else .inc (-1)) := by
  have hnat := cellOfAcc_toNat v
  have hrange := word9_range v
  by_cases hhalt : v.toInt = -1
  · rw [if_pos hhalt, toInt_eq_neg_one_iff.1 ((cellOfAcc_toInt v).trans hhalt), decode_haltWord]
  rw [if_neg hhalt]
  by_cases hsign : 0 ≤ v.toInt
  · rw [if_pos hsign]
    refine decode_of_opcode_zero ?_
    rw [opcodeField, extractBits]
    omega
  · have hw : cellOfAcc v ≠ haltWord := mt toInt_eq_neg_one_iff.2 (by rwa [cellOfAcc_toInt])
    have hopcode : opcodeField (cellOfAcc v) = 7 := by rw [opcodeField, extractBits]; omega
    have hbyte : op1Field (cellOfAcc v) = 255 := by rw [op1Field, extractBits]; omega
    have hoperand : signedOperand (op1Field (cellOfAcc v)) = -1 := by rw [hbyte]; rfl
    rw [if_neg hsign, decode_of_ne_haltWord hw, hopcode]
    exact congrArg (fun n => some (Instr.inc n)) hoperand

/-- Settles O45: after the store `pc` is on the cell stored to, so the fetch reads the stored pattern. -/
theorem storeIntoTheNextCellIsExecuted : Obligations.StoreIntoTheNextCellIsExecuted := by
  intro addr s h haddr
  have hpc := truncate9_toInt_of_target h
  have ⟨_, hN, _⟩ := h
  refine ⟨_, exec_of_target (i := .write addr) nofun (forall_addressOf_lt rfl (by omega)) h, hpc.trans haddr.symm,
    fun hl => step_eq_exec hl ?onCell ?decodes⟩
  case onCell =>
    show 0 ≤ (truncate9 (s.pc.toInt + 1)).toInt ∧ (truncate9 (s.pc.toInt + 1)).toInt < s.cfg.memLen
    omega
  case decodes =>
    show decode (memRead (memWrite s.mem addr (cellOfAcc s.acc)) (truncate9 (s.pc.toInt + 1)).toInt.toNat) = _
    rw [hpc, ← haddr, Int.toNat_natCast, memRead_memWrite_same, decode_cellOfAcc]

end Sys2Proof.Machine
end

section
/-! PROOFS. The Execution Result and the host's answer (spec 60_exceptions.md R166, R167). -/

namespace Sys2Proof.Machine

theorem resultOf_of_outcome {s : State} {o : RunOutcome} (h : outcomeOf s = some o) :
    resultOf s = some {
      message := messageText o, register := s.acc.toInt, programCounter := s.pc.toInt, instructionCount := s.icount,
      modifiedCells := s.log.map fun p => (p.1, p.2.toInt) } := by
  rw [resultOf, h, Option.map_some]

theorem exists_outcomeOf {s : State} (h : live s = false) : ∃ o, outcomeOf s = some o :=
  Option.ne_none_iff_exists'.1 (mt outcomeOf_eq_none_iff.1 (Bool.eq_false_iff.1 h))

/-- Settles O49: an ended state has an outcome, the Result copies its fields, and the invariant bounds the count and
ties the record's `pc` to the state's. -/
theorem resultIsTheFinalSnapshot : Obligations.ResultIsTheFinalSnapshot := by
  intro s hs hl
  obtain ⟨o, ho⟩ := exists_outcomeOf hl
  exact ⟨_, o, resultOf_of_outcome ho, ho, rfl, rfl, rfl, rfl, hs.icountLe, rfl,
    fun f hf => congrArg BitVec.toInt (hs.faultPc f hf).symm⟩

/-- A machine constructed from text is constructed from the words it assembles to. -/
theorem constructText_eq_machine {text : List Char} {excess budget : Int} {s : State}
    (h : constructText text excess budget = .machine s) : ∃ words, construct words excess budget = .machine s := by
  rw [constructText] at h
  cases ha : assemble text with
  | rejected why => rw [ha] at h; cases h
  | words ws => rw [ha] at h; exact ⟨ws, h⟩

theorem serve_of_rejected {text : List Char} {excess budget : Int} {why : ConstructionFailure}
    (h : constructText text excess budget = .rejected why) : serve text excess budget = some (.rejected why) := by
  rw [serve, h]

theorem serve_of_run {text : List Char} {excess budget : Int} {s t : State}
    (h : constructText text excess budget = .machine s) (ht : run s = .next t) :
    serve text excess budget = (resultOf t).map .result := by
  simp only [serve, h, ht]

/-- Settles O50: a constructed machine meets the invariant, so its run ends in a state with a Result, whose count is
within the budget. -/
theorem hostIsAlwaysAnswered : Obligations.HostIsAlwaysAnswered := by
  intro text excess budget
  cases hconstruct : constructText text excess budget with
  | rejected why => exact .inl ⟨why, rfl, serve_of_rejected hconstruct⟩
  | machine s =>
    obtain ⟨words, hwords⟩ := constructText_eq_machine hconstruct
    obtain ⟨-, hpositive, hs⟩ := construct_eq_machine hwords
    obtain ⟨t, hrun, hended, -, hinv, hcfg, -⟩ := everyRunEnds.2 s (construct_inv hwords)
    obtain ⟨o, ho⟩ := exists_outcomeOf hended
    have hresult := resultOf_of_outcome ho
    have hbudget : t.cfg.budget = budget.toNat := by rw [hcfg, hs]
    have hcount := hinv.icountLe
    exact .inr ⟨s, t, _, rfl, hrun, hended, hresult,
      by rw [serve_of_run hconstruct hrun, hresult, Option.map_some],
      show (t.icount : Int) ≤ budget by omega⟩

end Sys2Proof.Machine
end

section
/-! PROOFS. The words the encoder makes and the words that decode alike (spec 30_encoding.md R51 to R58). -/

namespace Sys2Proof

open Sys2Proof.Machine

/-- The instruction of an opcode depends on the operand bytes its kind uses only (R58, D9). -/
theorem instrOfWord_congr {w w' : Cell} {c : Nat} (hc : c < 8) (h1 : c ≠ 0 → op1Field w = op1Field w')
    (h2 : c = 1 → op2Field w = op2Field w') : (kindOfOpcode c).instrOfWord w = (kindOfOpcode c).instrOfWord w' := by
  obtain rfl | hc0 := eq_or_ne c 0
  · rfl
  obtain rfl | hc1 := eq_or_ne c 1
  · simp only [kindOfOpcode, Kind.instrOfWord, h1 hc0, h2 rfl]
  · have hop1 := h1 hc0
    have hc2 : 2 ≤ c := by omega
    interval_cases c <;> simp only [kindOfOpcode, Kind.instrOfWord, hop1]

/-- Settles O5: a word other than HALT's decodes by its opcode and the bytes the opcode's kind uses. -/
theorem decoderIgnoresUnusedBits : Obligations.DecoderIgnoresUnusedBits := by
  refine ⟨fun w w' hw hw' hopcode h1 h2 => ?_, by decide, by decide, by decide, by decide⟩
  rw [decode_of_ne_haltWord hw, decode_of_ne_haltWord hw', ← hopcode,
    instrOfWord_congr (opcodeField_lt w) h1 h2]

theorem addressField_of_le {a : Nat} (h : a ≤ 255) : addressField a = a :=
  Nat.mod_eq_of_lt (Nat.lt_succ_of_le h)

/-- The word of an instruction with an address operand, as a sum (R51, R55). -/
theorem packWord_addressField_toNat {c a : Nat} (hc : c < 8) (ha : a ≤ 255) :
    (packWord c (addressField a) 0).toNat = c * 65536 + a * 256 := by
  rw [packWord_toNat hc (addressField_lt a) (by decide), addressField_of_le ha, Nat.add_zero]

/-- A packed word has no bit from 19 on. -/
theorem packWord_toNat_le {c x y : Nat} (hc : c < 8) (hx : x < 256) (hy : y < 256) :
    (packWord c x y).toNat ≤ 0x7FFFF := by
  rw [packWord_toNat hc hx hy]
  omega

theorem encode_toNat_le {i : Instr} (hi : i ≠ .halt) : (encode i).toNat ≤ 0x7FFFF := by
  cases i with
  | halt => exact absurd rfl hi
  | nop => exact packWord_toNat_le (by decide) (by decide) (by decide)
  | add a b => exact packWord_toNat_le (by decide) (signedField_lt a) (signedField_lt b)
  | shift n | jump n | zjump n | inc n => exact packWord_toNat_le (by decide) (signedField_lt n) (by decide)
  | read addr | write addr => exact packWord_toNat_le (by decide) (addressField_lt addr) (by decide)

/-- Settles O6: each canonical word is a packed one, whose fields are summed. -/
theorem assembledWordLayout : Obligations.AssembledWordLayout :=
  ⟨rfl, rfl, fun a b => packWord_toNat (by decide) (signedField_lt a) (signedField_lt b),
    fun n => ⟨packWord_signedField_toNat (by decide) n, packWord_signedField_toNat (by decide) n,
      packWord_signedField_toNat (by decide) n, packWord_signedField_toNat (by decide) n⟩,
    fun _ ha => ⟨packWord_addressField_toNat (by decide) ha, packWord_addressField_toNat (by decide) ha⟩,
    fun _ => encode_toNat_le⟩

/-- Settles O7: the operands are read from byte fields. -/
theorem decodedInstructionsAreWellFormed : Obligations.DecodedInstructionsAreWellFormed :=
  fun _ _ => decode_wellFormed

/-- Settles O8: HALT's word is matched whole, and the others are rows of the opcode table. -/
theorem sampleWordsDecode : Obligations.SampleWordsDecode :=
  ⟨decode_haltWord, by decide, by decide, by decide, by decide, by decide, by decide, by decide, by decide,
    decode_of_opcode_zero rfl⟩

end Sys2Proof
end

section
/-! PROOFS. When a line assembles, and the line that stops the assembly (spec 30_encoding.md R66 to R68). -/

namespace Sys2Proof.Machine

theorem truncate8_eq_some {v : Int} {b : Nat} (h : truncate8 v = some b) :
    inSignedByte v = true ∧ b = signedField v := by
  have hv : inSignedByte v = true := by
    by_contra hout
    rw [inSignedByte_iff] at hout
    rw [truncate8_eq_none (by omega)] at h
    cases h
  rw [truncate8_of_inSignedByte hv, Option.some.injEq] at h
  exact ⟨hv, h.symm⟩

theorem addressByte_eq_some {v : Int} {b : Nat} (h : addressByte v = some b) :
    ∃ a : Nat, inAddressByte a = true ∧ v = a ∧ b = addressField a := by
  obtain ⟨⟨lo, hi⟩, hb⟩ := Option.ite_none_right_eq_some.1 h
  have hbyte : v.toNat ≤ 255 := by omega
  cases hb
  exact ⟨v.toNat, decide_eq_true hbyte, (Int.toNat_of_nonneg lo).symm, (addressField_of_le hbyte).symm⟩

theorem packSigned_eq_some {c : Nat} {v : Int} {w : Cell} (h : packSigned c v = some w) :
    inSignedByte v = true ∧ w = packWord c (signedField v) 0 := by
  obtain ⟨b, hb, rfl⟩ := Option.map_eq_some_iff.1 h
  obtain ⟨hv, rfl⟩ := truncate8_eq_some hb
  exact ⟨hv, rfl⟩

theorem packAddress_eq_some {c : Nat} {v : Int} {w : Cell} (h : packAddress c v = some w) :
    ∃ a : Nat, inAddressByte a = true ∧ v = a ∧ w = packWord c (addressField a) 0 := by
  obtain ⟨b, hb, rfl⟩ := Option.map_eq_some_iff.1 h
  obtain ⟨a, ha, hv, rfl⟩ := addressByte_eq_some hb
  exact ⟨a, ha, hv, rfl⟩

/-- A line assembles only if it spells a well-formed instruction, and then to that instruction's word (R66, R67,
D13). -/
theorem exists_instr_of_assembleOperands {k : Kind} {ops : List Int} {w : Cell} (h : assembleOperands k ops = some w) :
    ∃ i : Instr, i.WellFormed ∧ i.kind = k ∧ i.operands = ops ∧ w = encode i := by
  unfold assembleOperands at h
  split at h
  · cases h; exact ⟨.halt, rfl, rfl, rfl, rfl⟩
  · cases h; exact ⟨.nop, rfl, rfl, rfl, rfl⟩
  · next a b =>
    obtain ⟨x, hx, hrest⟩ := Option.bind_eq_some_iff.1 h
    obtain ⟨y, hy, rfl⟩ := Option.map_eq_some_iff.1 hrest
    obtain ⟨ha, rfl⟩ := truncate8_eq_some hx
    obtain ⟨hb, rfl⟩ := truncate8_eq_some hy
    exact ⟨.add a b, add_wellFormed_iff.2 ⟨ha, hb⟩, rfl, rfl, rfl⟩
  · next n => obtain ⟨hn, hw⟩ := packSigned_eq_some h; exact ⟨.shift n, hn, rfl, rfl, hw⟩
  · next n => obtain ⟨hn, hw⟩ := packSigned_eq_some h; exact ⟨.jump n, hn, rfl, rfl, hw⟩
  · next n => obtain ⟨hn, hw⟩ := packSigned_eq_some h; exact ⟨.zjump n, hn, rfl, rfl, hw⟩
  · obtain ⟨a, ha, rfl, hw⟩ := packAddress_eq_some h; exact ⟨.read a, ha, rfl, rfl, hw⟩
  · obtain ⟨a, ha, rfl, hw⟩ := packAddress_eq_some h; exact ⟨.write a, ha, rfl, rfl, hw⟩
  · next n => obtain ⟨hn, hw⟩ := packSigned_eq_some h; exact ⟨.inc n, hn, rfl, rfl, hw⟩
  · cases h

/-- Settles O9: the packing of a line succeeds on operands in range only, and gives the encoder's word. -/
theorem lineAssemblesIffOperandsInRange : Obligations.LineAssemblesIffOperandsInRange := by
  intro k ops w
  constructor
  · exact exists_instr_of_assembleOperands
  · rintro ⟨i, hwf, rfl, rfl, rfl⟩
    exact assembleOperands_eq_encode hwf

section
variable {l : List Char} {ls : List (List Char)} {n : Nat}

theorem assembleLines_cons_of_blank (h : isBlank (stripComment l) = true) :
    assembleLines n (l :: ls) = assembleLines (n + 1) ls :=
  if_pos h

theorem assembleLines_cons_of_unmatched (hb : isBlank (stripComment l) = false)
    (hp : parseLine (stripComment l) = none) : assembleLines n (l :: ls) = .rejected (.invalidLine n) := by
  simp only [assembleLines, hb, hp, Bool.false_eq_true, if_false]

/-- A line with a word hands on a rejection of the lines after it. -/
theorem assembleLines_cons_of_rejected {k : Kind} {ops : List Int} {w : Cell} {why : ConstructionFailure}
    (hp : parseLine (stripComment l) = some (k, ops)) (hw : assembleOperands k ops = some w)
    (h : assembleLines (n + 1) ls = .rejected why) : assembleLines n (l :: ls) = .rejected why := by
  cases hb : isBlank (stripComment l) with
  | true => rw [assembleLines_cons_of_blank hb, h]
  | false => simp only [assembleLines, hb, hp, hw, h, Bool.false_eq_true, if_false]

/-- A line with a word puts it before those of the lines after it (R62). -/
theorem assembleLines_cons_of_words {k : Kind} {ops : List Int} {w : Cell} {ws : List Cell}
    (hb : isBlank (stripComment l) = false) (hp : parseLine (stripComment l) = some (k, ops))
    (hw : assembleOperands k ops = some w) (h : assembleLines (n + 1) ls = .words ws) :
    assembleLines n (l :: ls) = .words (w :: ws) := by
  simp only [assembleLines, hb, hp, hw, h, Bool.false_eq_true, if_false]

end

/-- Lines that are blank or have a word do not stop the assembly, whatever the first line's number (R68). -/
theorem assembleLines_rejects_unmatched {before after : List (List Char)} {bad : List Char}
    (h : ∀ l ∈ before, isBlank (stripComment l) = true ∨
      ∃ k ops w, parseLine (stripComment l) = some (k, ops) ∧ assembleOperands k ops = some w)
    (hb : isBlank (stripComment bad) = false) (hp : parseLine (stripComment bad) = none) (n : Nat) :
    assembleLines n (before ++ bad :: after) = .rejected (.invalidLine (n + before.length)) := by
  induction before generalizing n with
  | nil => exact assembleLines_cons_of_unmatched hb hp
  | cons l ls ih =>
    obtain ⟨hl, hls⟩ := List.forall_mem_cons.1 h
    have hrest : assembleLines (n + 1) (ls ++ bad :: after) =
        .rejected (.invalidLine (n + (l :: ls).length)) := by
      rw [ih hls, List.length_cons, Nat.add_assoc, Nat.add_comm 1]
    obtain hblank | ⟨k, ops, w, hparse, hword⟩ := hl
    · rw [List.cons_append, assembleLines_cons_of_blank hblank, hrest]
    · exact assembleLines_cons_of_rejected hparse hword hrest

/-- Settles O10: by induction on the lines before it, the unmatched line is reached and its number reported. -/
theorem firstUnmatchedLineIsReported : Obligations.FirstUnmatchedLineIsReported := by
  intro before bad after h hb hp
  rw [assembleLines_rejects_unmatched h hb hp, Nat.add_comm]

end Sys2Proof.Machine
end

section
/-! PROOFS. Lines and decimal literals: the assembler's splitting and parsing (spec 30_encoding.md R62, R64, D14,
D20). -/

namespace Sys2Proof.Machine

/-- The assembler's splitting is the library's. -/
theorem splitOnChar_eq_splitOn (sep : Char) (cs : List Char) : splitOnChar sep cs = cs.splitOn sep := by
  induction cs with
  | nil => rfl
  | cons c cs ih =>
    rw [splitOnChar, List.splitOn_cons_eq_if_modifyHead, ih]
    by_cases hc : c = sep
    · rw [if_pos hc, if_pos (beq_iff_eq.2 hc)]
    · rw [if_neg hc, if_neg (mt beq_iff_eq.1 hc)]
      cases hs : cs.splitOn sep with
      | nil => exact absurd hs (List.splitOn_ne_nil sep cs)
      | cons l ls => rfl

/-- Splitting undoes joining by a separator that stands in no piece. -/
theorem splitOnChar_intercalate {sep : Char} {ls : List (List Char)} (h : ∀ l ∈ ls, sep ∉ l) (hne : ls ≠ []) :
    splitOnChar sep ([sep].intercalate ls) = ls := by
  rw [splitOnChar_eq_splitOn, List.splitOn_intercalate sep h hne]

theorem intercalate_splitOnChar (sep : Char) (cs : List Char) : [sep].intercalate (splitOnChar sep cs) = cs := by
  rw [splitOnChar_eq_splitOn, List.intercalate_splitOn]

/-- A mnemonic and then operands, each after one separator, is the join of them all. -/
theorem intercalate_eq_append_flatMap (sep : Char) (head : List Char) (texts : List (List Char)) :
    [sep].intercalate (head :: texts) = head ++ texts.flatMap fun t => sep :: t := by
  induction texts generalizing head with
  | nil => simp
  | cons t ts ih => rw [List.intercalate_cons_cons, ih, List.flatMap_cons]; simp

theorem ofDigits_reverse_cons (d : Nat) (ds : List Nat) :
    Nat.ofDigits 10 (d :: ds).reverse = d * 10 ^ ds.length + Nat.ofDigits 10 ds.reverse := by
  rw [List.reverse_cons, Nat.ofDigits_append, Nat.ofDigits_singleton, List.length_reverse, Nat.add_comm, Nat.mul_comm]

/-- The digits read after `acc` continue its decimal expansion. -/
theorem parseDigits_map_digitChar {ds : List Nat} (h : ∀ d ∈ ds, d < 10) (acc : Nat) :
    parseDigits acc (ds.map Nat.digitChar) = some (acc * 10 ^ ds.length + Nat.ofDigits 10 ds.reverse) := by
  induction ds generalizing acc with
  | nil => simp [parseDigits]
  | cons d ds ih =>
    obtain ⟨hd, hds⟩ := List.forall_mem_cons.1 h
    have hdigit : d.digitChar.isDigit = true := by rw [Nat.isDigit_digitChar, decide_eq_true hd]
    rw [List.map_cons, parseDigits, if_pos hdigit, ih hds, Nat.toNat_digitChar_sub_48_of_lt_ten hd,
      ofDigits_reverse_cons, List.length_cons]
    exact congrArg some (by ring)

/-- A decimal digit is the character of a number below ten. -/
theorem exists_digitChar_of_isDigit {c : Char} (h : c.isDigit = true) : ∃ d < 10, c = d.digitChar := by
  obtain ⟨lo, hi⟩ := Char.isDigit_iff_toNat.1 h
  have hlo : 48 ≤ c.toNat := lo
  have hhi : c.toNat ≤ 57 := hi
  refine ⟨c.toNat - 48, by omega, Char.toNat_inj.1 ?_⟩
  rw [Nat.toNat_digitChar_of_lt_ten (by omega)]
  omega

/-- Only digits are read. -/
theorem exists_digits_of_parseDigits {cs : List Char} {acc n : Nat} (h : parseDigits acc cs = some n) :
    ∃ ds : List Nat, (∀ d ∈ ds, d < 10) ∧ cs = ds.map Nat.digitChar := by
  induction cs generalizing acc with
  | nil => exact ⟨[], nofun, rfl⟩
  | cons c cs ih =>
    rw [parseDigits, Option.ite_none_right_eq_some] at h
    obtain ⟨hc, hrest⟩ := h
    obtain ⟨d, hd, rfl⟩ := exists_digitChar_of_isDigit hc
    obtain ⟨ds, hds, rfl⟩ := ih hrest
    exact ⟨d :: ds, List.forall_mem_cons.2 ⟨hd, hds⟩, rfl⟩

/-- An unsigned literal is one or more digits and denotes their decimal value (R64, D14). -/
theorem parseNat_eq_some_iff {cs : List Char} {n : Nat} :
    parseNat cs = some n ↔
      ∃ ds : List Nat, ds ≠ [] ∧ (∀ d ∈ ds, d < 10) ∧ cs = ds.map Nat.digitChar ∧ n = Nat.ofDigits 10 ds.reverse := by
  constructor
  · intro h
    rw [parseNat, Option.ite_none_left_eq_some] at h
    obtain ⟨hne, hparse⟩ := h
    obtain ⟨ds, hds, rfl⟩ := exists_digits_of_parseDigits hparse
    rw [parseDigits_map_digitChar hds, Nat.zero_mul, Nat.zero_add, Option.some.injEq] at hparse
    exact ⟨ds, fun hnil => hne (by rw [hnil]; rfl), hds, rfl, hparse.symm⟩
  · rintro ⟨ds, hne, hds, rfl, rfl⟩
    rw [parseNat, if_neg (by simpa using hne), parseDigits_map_digitChar hds, Nat.zero_mul, Nat.zero_add]

theorem digitChar_ne_minus {d : Nat} (h : d < 10) : d.digitChar ≠ '-' := by
  intro hminus
  have hdigit : d.digitChar.isDigit = true := by rw [Nat.isDigit_digitChar, decide_eq_true h]
  rw [hminus] at hdigit
  cases hdigit

/-- `<int>` is read exactly from the decimal literals of a value (R64, D14). -/
theorem parseInt_eq_some_iff {text : List Char} {v : Int} : parseInt text = some v ↔ IsLiteral text v := by
  constructor
  · intro h
    cases text with
    | nil => cases h
    | cons c cs =>
      rw [parseInt] at h
      split at h
      · next hminus =>
        obtain ⟨n, hn, rfl⟩ := Option.map_eq_some_iff.1 h
        obtain ⟨ds, hne, hds, rfl, rfl⟩ := parseNat_eq_some_iff.1 hn
        exact ⟨true, ds, hne, hds, by rw [hminus]; rfl, rfl⟩
      · obtain ⟨n, hn, rfl⟩ := Option.map_eq_some_iff.1 h
        obtain ⟨ds, hne, hds, htext, rfl⟩ := parseNat_eq_some_iff.1 hn
        exact ⟨false, ds, hne, hds, htext, rfl⟩
  · rintro ⟨neg, ds, hne, hds, rfl, rfl⟩
    have hvalue := parseNat_eq_some_iff.2 ⟨ds, hne, hds, rfl, rfl⟩
    cases neg with
    | true =>
      show (parseNat (ds.map Nat.digitChar)).map (fun n : Nat => -(n : Int)) = _
      rw [hvalue]
      rfl
    | false =>
      obtain ⟨d, ds, rfl⟩ := List.exists_cons_of_ne_nil hne
      have hd : d.digitChar ≠ '-' := digitChar_ne_minus (hds d List.mem_cons_self)
      show parseInt (d.digitChar :: ds.map Nat.digitChar) = _
      rw [parseInt, if_neg hd, ← List.map_cons, hvalue]
      rfl

/-- The operands of a line are read one by one. -/
theorem mapM_parseInt_eq_some_iff {texts : List (List Char)} {ops : List Int} :
    texts.mapM parseInt = some ops ↔ List.Forall₂ IsLiteral texts ops := by
  induction texts generalizing ops with
  | nil => cases ops <;> simp
  | cons t ts ih =>
    rw [List.mapM_cons]
    constructor
    · intro h
      obtain ⟨v, hv, h⟩ := Option.bind_eq_some_iff.1 h
      obtain ⟨vs, hvs, h⟩ := Option.bind_eq_some_iff.1 h
      cases h
      exact .cons (parseInt_eq_some_iff.1 hv) (ih.1 hvs)
    · intro h
      cases h with
      | cons hv hvs => rw [parseInt_eq_some_iff.2 hv, ih.2 hvs]; rfl

end Sys2Proof.Machine
end

section
/-! PROOFS. The kind of a line (spec 30_encoding.md R64, R65, C8). -/

namespace Sys2Proof.Machine

/-- A piece of a line: it holds no white space and begins no comment. -/
def IsToken (t : List Char) : Prop := t ≠ [] ∧ ∀ c ∈ t, isSpace c = false ∧ c ≠ '#'

theorem isToken_mnemonicOf (k : Kind) : IsToken (mnemonicOf k) := by
  cases k <;> simp [IsToken, mnemonicOf, isSpace]

theorem digitChar_token {d : Nat} (h : d < 10) : isSpace d.digitChar = false ∧ d.digitChar ≠ '#' := by
  interval_cases d <;> decide

theorem isToken_of_isLiteral {t : List Char} {v : Int} (h : IsLiteral t v) : IsToken t := by
  obtain ⟨neg, ds, hne, hds, rfl, -⟩ := h
  refine ⟨by simpa [literalText] using fun _ => hne, fun c hc => ?_⟩
  obtain hsign | hdigit := List.mem_append.1 hc
  · have hminus : c = '-' := by
      cases neg with
      | true => simpa using hsign
      | false => simp at hsign
    rw [hminus]
    decide
  · obtain ⟨d, hd, rfl⟩ := List.mem_map.1 hdigit
    exact digitChar_token (hds d hd)

theorem not_space_mem_of_isToken {t : List Char} (h : IsToken t) : ' ' ∉ t :=
  fun hmem => nomatch (h.2 ' ' hmem).1

theorem isToken_of_forall₂ {texts : List (List Char)} {ops : List Int} (h : List.Forall₂ IsLiteral texts ops) :
    ∀ t ∈ texts, IsToken t := by
  induction h with
  | nil => nofun
  | cons hv _ ih => exact List.forall_mem_cons.2 ⟨isToken_of_isLiteral hv, ih⟩

/-- Splitting a line at its spaces gives back a mnemonic and its operands (C8). -/
theorem splitOnChar_space_line {head : List Char} {texts : List (List Char)} (hhead : IsToken head)
    (htexts : ∀ t ∈ texts, IsToken t) :
    splitOnChar ' ' (head ++ texts.flatMap fun t => ' ' :: t) = head :: texts := by
  rw [← intercalate_eq_append_flatMap]
  refine splitOnChar_intercalate (List.forall_mem_cons.2 ⟨not_space_mem_of_isToken hhead, fun t ht => ?_⟩)
    (List.cons_ne_nil _ _)
  exact not_space_mem_of_isToken (htexts t ht)

theorem matchLine_eq_some_iff {line : List Char} {k : Kind} {ops : List Int} :
    matchLine line k = some ops ↔
      ∃ args, splitOnChar ' ' line = mnemonicOf k :: args ∧ args.length = arityOf k ∧
        args.mapM parseInt = some ops := by
  rw [matchLine]
  cases splitOnChar ' ' line with
  | nil => simp
  | cons m args =>
    rw [Option.ite_none_right_eq_some]
    constructor
    · rintro ⟨⟨rfl, hlen⟩, hops⟩
      exact ⟨args, rfl, hlen, hops⟩
    · rintro ⟨args', heq, hlen, hops⟩
      obtain ⟨rfl, rfl⟩ := List.cons.inj heq
      exact ⟨⟨rfl, hlen⟩, hops⟩

/-- A kind's pattern matches exactly the spellings of it. -/
theorem matchLine_eq_some_iff_spells {line : List Char} {k : Kind} {ops : List Int} :
    matchLine line k = some ops ↔ Spells line k ops := by
  rw [matchLine_eq_some_iff]
  constructor
  · rintro ⟨args, hsplit, hlen, hops⟩
    have hliterals := mapM_parseInt_eq_some_iff.1 hops
    refine ⟨by rw [← hliterals.length_eq, hlen], args, hliterals, ?_⟩
    rw [← intercalate_eq_append_flatMap, ← hsplit, intercalate_splitOnChar]
  · rintro ⟨hlen, texts, hliterals, rfl⟩
    exact ⟨texts, splitOnChar_space_line (isToken_mnemonicOf k) (isToken_of_forall₂ hliterals),
      by rw [hliterals.length_eq, hlen], mapM_parseInt_eq_some_iff.2 hliterals⟩

theorem find_mnemonicOf (k : Kind) : Kind.priority.find? (fun k' => mnemonicOf k' = mnemonicOf k) = some k := by
  cases k <;> rfl

/-- The mnemonics tell the kinds apart. -/
theorem mnemonicOf_injective : Function.Injective mnemonicOf := by
  intro k k' h
  have hfind := find_mnemonicOf k
  rw [h, find_mnemonicOf k'] at hfind
  exact (Option.some.inj hfind).symm

/-- At most one kind's pattern matches a line. -/
theorem kind_eq_of_matchLine {line : List Char} {k k' : Kind} {ops ops' : List Int} (h : matchLine line k = some ops)
    (h' : matchLine line k' = some ops') : k = k' := by
  obtain ⟨_, hsplit, -⟩ := matchLine_eq_some_iff.1 h
  obtain ⟨_, hsplit', -⟩ := matchLine_eq_some_iff.1 h'
  exact mnemonicOf_injective (List.cons.inj (hsplit.symm.trans hsplit')).1

/-- The scan finds the one kind that matches, wherever it stands in the order (R65). -/
theorem matchKind_eq_some_iff {line : List Char} {ks : List Kind} {k : Kind} {ops : List Int} :
    matchKind line ks = some (k, ops) ↔ k ∈ ks ∧ matchLine line k = some ops := by
  induction ks with
  | nil => simp [matchKind]
  | cons k₀ ks ih =>
    rw [matchKind]
    cases h₀ : matchLine line k₀ with
    | none =>
      have hne (h : matchLine line k = some ops) : k ≠ k₀ := by rintro rfl; rw [h₀] at h; cases h
      exact ih.trans ⟨fun ⟨hk, h⟩ => ⟨List.mem_cons_of_mem _ hk, h⟩,
        fun ⟨hk, h⟩ => ⟨(List.mem_cons.1 hk).resolve_left (hne h), h⟩⟩
    | some ops₀ =>
      constructor
      · rintro ⟨⟩
        exact ⟨List.mem_cons_self, h₀⟩
      · rintro ⟨-, h⟩
        obtain rfl := kind_eq_of_matchLine h h₀
        rw [h₀] at h
        cases h
        rfl

theorem mem_priority (k : Kind) : k ∈ Kind.priority := by
  cases k <;> decide

theorem parseLine_eq_some_iff {line : List Char} {k : Kind} {ops : List Int} :
    parseLine line = some (k, ops) ↔ Spells line k ops := by
  rw [parseLine, matchKind_eq_some_iff, matchLine_eq_some_iff_spells, and_iff_right (mem_priority k)]

theorem operands_length (i : Instr) : i.operands.length = arityOf i.kind := by
  cases i <;> rfl

/-- Settles O51: the scan finds the kind whose pattern matches, and a pattern matches the spellings of its kind. -/
theorem lineMatchesExactlyItsSpellings : Obligations.LineMatchesExactlyItsSpellings :=
  ⟨fun _ _ _ => parseLine_eq_some_iff, rfl, operands_length⟩

end Sys2Proof.Machine
end

section
/-! PROOFS. A text of blank and valid lines assembles to its words (spec 30_encoding.md R62, R63, R66). -/

namespace Sys2Proof.Machine

/-- A text that begins and ends with a character that is no white space. -/
def IsTrimmed (t : List Char) : Prop :=
  (∃ c cs, t = c :: cs ∧ isSpace c = false) ∧ ∃ cs c, t = cs ++ [c] ∧ isSpace c = false

theorem isTrimmed_of_isToken {t : List Char} (h : IsToken t) : IsTrimmed t := by
  obtain ⟨hne, hchars⟩ := h
  constructor
  · obtain ⟨c, cs, rfl⟩ := List.exists_cons_of_ne_nil hne
    exact ⟨c, cs, rfl, (hchars c List.mem_cons_self).1⟩
  · obtain ⟨cs, c, rfl⟩ := (List.eq_nil_or_concat' t).resolve_left hne
    exact ⟨cs, c, rfl, (hchars c List.mem_concat_self).1⟩

theorem isTrimmed_append {a b : List Char} (ha : IsTrimmed a) (hb : IsTrimmed b) (mid : List Char) :
    IsTrimmed (a ++ mid ++ b) := by
  obtain ⟨⟨c, cs, rfl, hc⟩, -⟩ := ha
  obtain ⟨-, ds, d, rfl, hd⟩ := hb
  exact ⟨⟨c, cs ++ mid ++ (ds ++ [d]), by simp, hc⟩, c :: cs ++ mid ++ ds, d, by simp, hd⟩

/-- A mnemonic with its operands begins and ends with a token's characters. -/
theorem isTrimmed_line {head : List Char} {texts : List (List Char)} (hhead : IsTrimmed head)
    (htexts : ∀ t ∈ texts, IsToken t) : IsTrimmed (head ++ texts.flatMap fun t => ' ' :: t) := by
  induction texts generalizing head with
  | nil => simpa using hhead
  | cons t ts ih =>
    obtain ⟨ht, hts⟩ := List.forall_mem_cons.1 htexts
    have hnext := ih (isTrimmed_append hhead (isTrimmed_of_isToken ht) [' ']) hts
    simpa using hnext

/-- A spelling has no white space around it and no comment in it. -/
theorem isTrimmed_of_spells {line : List Char} {k : Kind} {ops : List Int} (h : Spells line k ops) :
    IsTrimmed line ∧ '#' ∉ line := by
  obtain ⟨-, texts, hliterals, rfl⟩ := h
  have hhead := isToken_mnemonicOf k
  have htexts := isToken_of_forall₂ hliterals
  refine ⟨isTrimmed_line (isTrimmed_of_isToken hhead) htexts, fun hmem => ?_⟩
  obtain hmem | hmem := List.mem_append.1 hmem
  · exact (hhead.2 '#' hmem).2 rfl
  · obtain ⟨t, ht, hmem⟩ := List.mem_flatMap.1 hmem
    obtain hspace | hmem := List.mem_cons.1 hmem
    · cases hspace
    · exact ((htexts t ht).2 '#' hmem).2 rfl

theorem dropWhile_isSpace_append {lead cs : List Char} {c : Char} (hlead : ∀ x ∈ lead, isSpace x = true)
    (hc : isSpace c = false) : (lead ++ c :: cs).dropWhile isSpace = c :: cs := by
  rw [List.dropWhile_append_of_pos hlead, List.dropWhile_cons_of_neg (Bool.eq_false_iff.1 hc)]

/-- Trimming removes the white space around a trimmed text and nothing else. -/
theorem trimSpace_append {lead body trail : List Char} (hbody : IsTrimmed body)
    (hlead : ∀ x ∈ lead, isSpace x = true) (htrail : ∀ x ∈ trail, isSpace x = true) :
    trimSpace (lead ++ body ++ trail) = body := by
  obtain ⟨⟨c, cs, hfirst, hc⟩, ds, d, hlast, hd⟩ := hbody
  have hleft : (lead ++ body ++ trail).dropWhile isSpace = body ++ trail := by
    rw [hfirst, List.append_assoc, List.cons_append, dropWhile_isSpace_append hlead hc]
  have hright : (body ++ trail).reverse.dropWhile isSpace = body.reverse := by
    rw [List.reverse_append, hlast, List.reverse_append, List.reverse_singleton, List.singleton_append,
      dropWhile_isSpace_append (by simpa using htrail) hd]
  rw [trimSpace, hleft, hright, List.reverse_reverse]

/-- What stands before an optional comment is kept. -/
theorem takeWhile_append_comment {text comment : List Char} (htext : '#' ∉ text)
    (hcomment : comment = [] ∨ ∃ rest, comment = '#' :: rest) :
    (text ++ comment).takeWhile (fun c => c != '#') = text := by
  have hkeep : ∀ c ∈ text, (c != '#') = true := fun c hc => bne_iff_ne.2 fun heq => htext (heq ▸ hc)
  rw [List.takeWhile_append_of_pos hkeep]
  obtain rfl | ⟨rest, rfl⟩ := hcomment
  · exact List.append_nil text
  · exact List.append_nil text

theorem hash_not_mem_of_isSpace {cs : List Char} (h : ∀ c ∈ cs, isSpace c = true) : '#' ∉ cs :=
  fun hmem => nomatch h '#' hmem

theorem isBlank_of_isTrimmed {t : List Char} (h : IsTrimmed t) : isBlank t = false := by
  obtain ⟨⟨c, cs, rfl, hc⟩, -⟩ := h
  rw [isBlank, List.all_cons, hc, Bool.false_and]

/-- Stripping a source line leaves the spelling of its instruction (R63). -/
theorem stripComment_of_sourceLine {line : List Char} {i : Instr} (h : SourceLine line i) :
    Spells (stripComment line) i.kind i.operands := by
  obtain ⟨lead, body, trail, comment, rfl, hspells, hlead, htrail, hcomment⟩ := h
  obtain ⟨htrimmed, hbody⟩ := isTrimmed_of_spells hspells
  have htext : '#' ∉ lead ++ body ++ trail := by
    simp [hash_not_mem_of_isSpace hlead, hbody, hash_not_mem_of_isSpace htrail]
  rwa [stripComment, takeWhile_append_comment htext hcomment, trimSpace_append htrimmed hlead htrail]

/-- A line that carries a well-formed instruction puts its word before those of the lines after it. -/
theorem assembleLines_cons_of_sourceLine {line : List Char} {i : Instr} (hwf : i.WellFormed) (h : SourceLine line i)
    {n : Nat} {ls : List (List Char)} {ws : List Cell} (hrest : assembleLines (n + 1) ls = .words ws) :
    assembleLines n (line :: ls) = .words (encode i :: ws) := by
  have hspells := stripComment_of_sourceLine h
  exact assembleLines_cons_of_words (isBlank_of_isTrimmed (isTrimmed_of_spells hspells).1)
    (parseLine_eq_some_iff.2 hspells) (assembleOperands_eq_encode hwf) hrest

/-- Lines that are blank or carry instructions assemble to the instructions' words, whatever the first line's number. -/
theorem assembleLines_of_source {source : List (List Char × Option Instr)}
    (hblank : ∀ p ∈ source, p.2 = none → isBlank (stripComment p.1) = true)
    (hinstr : ∀ p ∈ source, ∀ i, p.2 = some i → i.WellFormed ∧ SourceLine p.1 i) (n : Nat) :
    assembleLines n (source.map Prod.fst) = .words ((source.filterMap Prod.snd).map encode) := by
  induction source generalizing n with
  | nil => rfl
  | cons p source ih =>
    obtain ⟨hp, hblank⟩ := List.forall_mem_cons.1 hblank
    obtain ⟨hpi, hinstr⟩ := List.forall_mem_cons.1 hinstr
    have hrest := ih hblank hinstr (n + 1)
    obtain ⟨line, _ | i⟩ := p
    · exact (assembleLines_cons_of_blank (hp rfl)).trans hrest
    · obtain ⟨hwf, hline⟩ := hpi i rfl
      exact assembleLines_cons_of_sourceLine hwf hline hrest

/-- Settles O52: the text splits into the source lines, which assemble in order; the empty text is one blank line. -/
theorem programAssemblesToItsWordsInOrder : Obligations.ProgramAssemblesToItsWordsInOrder := by
  intro source hlines hblank hinstr
  obtain rfl | hne := eq_or_ne source []
  · rfl
  · have hsplit := splitOnChar_intercalate (sep := '\n') (ls := source.map Prod.fst)
      (by simpa using fun line o hmem => hlines (line, o) hmem) (mt List.map_eq_nil_iff.1 hne)
    rw [assemble, hsplit, assembleLines_of_source hblank hinstr]

end Sys2Proof.Machine
end
